-- ==== Sys2Proof/Word.lean ====
section
/-! DEFINITION. The widths the spec gives its data: bytes, 32-bit words and the sixteen accumulator or digest slots
(spec/00_scope.md R6, spec/10_state.md R10). -/

namespace Sys2Proof

/-- A byte, 8 bits, unsigned; bit 0 is the least significant (R6). -/
abbrev Byte := BitVec 8

/-- A 32-bit register or command word (R15, R17, R18). -/
abbrev Word := BitVec 32

/-- Sixteen byte slots, slot 0 first: `ACC`, `DG`, `MAGIC` and every digest (R12, R21, R85, R88). -/
abbrev Slots := Vector Byte 16

end Sys2Proof
end

