-- ==== Sys2Proof/Syntax.lean ====
section
/-! DEFINITION. The five operations of the CORE (spec/opcode_table.json, spec/30_encoding.md R51), with the operands that
stand in the command word (R53). DIGEST, RECOVER and OBFUSCATE take theirs from `BUFV`, `BUF` and `LEN`. -/

namespace Sys2Proof

/-- An operation: one constructor per row of the opcode table. -/
inductive Instr where
  /-- RECB `key, data`: recover one byte (R75). -/
  | recb (key data : Byte)
  /-- OBFB `key, data`: obfuscate one byte (R76). -/
  | obfb (key data : Byte)
  /-- DIGEST: checksum of a span (R89). -/
  | digest
  /-- RECOVER: recover a block in place (R96). -/
  | recover
  /-- OBFUSCATE: stamp and obfuscate a block in place (R97). -/
  | obfuscate
deriving DecidableEq, Repr

end Sys2Proof
end

