-- ==== Sys2Proof/WellFormed.lean ====
section
/-! DEFINITION. Which command words are legal (spec/30_encoding.md R52, R54), by the masks and matches of R52, and
well-formedness of operations. -/

namespace Sys2Proof

/-- A row of R52: a word `w` selects the operation when `(w and mask) = pat`. -/
structure Row where
  mnemonic : String
  mask : Word
  pat : Word
deriving DecidableEq, Repr

/-- The five rows of R52. -/
def rows : List Row :=
  [⟨"RECB", 0xFF0000FF, 0x00000001⟩, ⟨"OBFB", 0xFF0000FF, 0x00000002⟩, ⟨"DIGEST", 0xFFFFFFFF, 0x00000003⟩,
    ⟨"RECOVER", 0xFFFFFFFF, 0x00000004⟩, ⟨"OBFUSCATE", 0xFFFFFFFF, 0x00000005⟩]

/-- `w` selects the row's operation. -/
def Row.selects (r : Row) (w : Word) : Bool := w &&& r.mask == r.pat

/-- A command word is legal when it matches a row of R52; everything else is illegal (R54). -/
def commandLegal (w : Word) : Bool := rows.any (·.selects w)

/-- R54, first check: `OP` is not 0, 6 or 7. -/
def opLegal (w : Word) : Bool := 1 ≤ (w &&& 7).toNat && (w &&& 7).toNat ≤ 5

/-- R54, second check: none of bits 31:24 and 7:3 is 1. -/
def reservedClear (w : Word) : Bool := w &&& 0xFF0000F8 == 0

/-- R54, third check: in format S (`OP` 3, 4, 5) none of bits 23:8 is 1. -/
def operandFieldsClear (w : Word) : Bool := (w &&& 7).toNat < 3 || w &&& 0x00FFFF00 == 0

/-- The operand restrictions on an operation: none. "every one of the 256 x 256 combinations is legal" (R53), and the two
operands of the byte operations are bytes by their type, so every term of `Instr` is well formed. -/
def Instr.wellFormed : Instr → Bool
  | .recb _ _ => true
  | .obfb _ _ => true
  | .digest => true
  | .recover => true
  | .obfuscate => true

end Sys2Proof
end

