-- ==== Sys2Proof/Decode.lean ====
section
/-! DEFINITION. The decoder of command words and its encoder (spec/30_encoding.md R50 to R54, R59, R60). -/

namespace Sys2Proof

/-- Why a command word is illegal (R54). -/
inductive DecodeError where
  /-- One of bits 31:24 or 7:3 is 1. -/
  | reservedBits
  /-- `OP` is 0, 6 or 7. -/
  | illegalOp
  /-- Format S with one of bits 23:8 equal to 1. -/
  | operandFieldsNotZero
deriving DecidableEq, Repr

/-- `OP`, bits 2:0 (R50). -/
def opField (w : Word) : BitVec 3 := w.extractLsb' 0 3

/-- The reserved bits 7:3 (R50). -/
def reservedLow (w : Word) : BitVec 5 := w.extractLsb' 3 5

/-- `KEY`, bits 15:8 (R50). -/
def keyField (w : Word) : Byte := w.extractLsb' 8 8

/-- `DATA`, bits 23:16 (R50). -/
def dataField (w : Word) : Byte := w.extractLsb' 16 8

/-- The reserved bits 31:24 (R50). -/
def reservedHigh (w : Word) : Byte := w.extractLsb' 24 8

/-- A format S word: the operation, if `KEY` and `DATA` are 0 (R50, R54). -/
def decodeSpan (w : Word) (i : Instr) : Except DecodeError Instr :=
  if keyField w = 0 ∧ dataField w = 0 then .ok i else .error .operandFieldsNotZero

/-- The decoder of command words, total: the operation R51 and R52 give the word, or the reason it is illegal (R54). -/
def decode (w : Word) : Except DecodeError Instr :=
  if reservedHigh w = 0 ∧ reservedLow w = 0 then
    match (opField w).toNat with
    | 1 => .ok (.recb (keyField w) (dataField w))
    | 2 => .ok (.obfb (keyField w) (dataField w))
    | 3 => decodeSpan w .digest
    | 4 => decodeSpan w .recover
    | 5 => decodeSpan w .obfuscate
    | _ => .error .illegalOp
  else .error .reservedBits

/-- A format B word (R50, R60): `(data << 16) or (key << 8) or op`. -/
def byteWord (op : Nat) (key data : Byte) : Word :=
  data.setWidth 32 <<< 16 ||| key.setWidth 32 <<< 8 ||| BitVec.ofNat 32 op

/-- The command word of an operation (R60). -/
def encode : Instr → Word
  | .recb key data => byteWord 1 key data
  | .obfb key data => byteWord 2 key data
  | .digest => 0x00000003
  | .recover => 0x00000004
  | .obfuscate => 0x00000005

/-- The command word whose lowest `nbits` bits are those of `w` and whose other bits are 0. -/
def tableWord (nbits w : Nat) : Word := BitVec.ofNat 32 (w % 2 ^ nbits)

/-- The operation the decoder reads from a word numbered as the opcode table numbers it: a command word is one 32-bit
value, bit 0 least significant, so the table's number is the word itself. -/
def decodeTableWord (nbits w : Nat) : Option Instr :=
  match decode (tableWord nbits w) with
  | .ok i => some i
  | .error _ => none

end Sys2Proof
end

