-- ==== Sys2Proof/Config.lean ====
section
/-! DEFINITION. What is fixed for the machine (spec/00_scope.md R5): the constants the spec gives, the OPEN tables with
the properties R70 gives them, the return values, and the free values that stand for what the spec leaves unspecified. -/

namespace Sys2Proof.Config

/-- `HEADER_LEN` (R5): bytes in the header of a block. -/
def headerLen : Nat := 16

/-- `SEED_OFFSET` (R5): block offset of the seed key byte. -/
def seedOffset : Nat := 15

/-- `MIN_LEN` (R5): least legal block length. -/
def minLen : Nat := 16

/-- `MAGIC[0..15]` (R5, R14): initial value of the checksum accumulator. UNVERIFIED: the spec calls the literals
unaudited (D18, N12; assumption 4); unsafe if one of them is wrong. -/
def magic : Slots :=
  #v[0x01, 0x23, 0x45, 0x67, 0x89, 0xAB, 0xCD, 0xEF, 0xFE, 0xDC, 0xBA, 0x98, 0x76, 0x54, 0x32, 0x10]

/-- `REC_MISSING` (R5, R57, R111): RECOVER's return value for an absent buffer. -/
def recMissing : Word := 0xFFFFFFFF

/-- `OBF_MISSING` (R5, R57, R111): OBFUSCATE's return value for an absent buffer, `sext_32(-1)`. -/
def obfMissing : Word := BitVec.ofInt 32 (-1)

/-- DIGEST's return value for an absent buffer (R18, R89). -/
def digestMissing : Word := 0xFFFFFFFF

/-- `RES_UNDERSIZED` (R5, R113). -/
def resUndersized : Word := 0xFFFFFFFE

/-- `RES` of an illegal command word (R18, R54). -/
def resIllegal : Word := 0xFFFFFFFD

/-! ## The OPEN tables -/

/-- The parameters whose values the source does not give (R5, R14): the two permutation tables, a byte-to-byte function
per class and direction, and the thirteen mixing constants. -/
structure Tables where
  /-- `PERM_REC[0..6]`. -/
  permRec : Fin 7 → Byte → Byte
  /-- `PERM_OBF[0..6]`. -/
  permObf : Fin 7 → Byte → Byte
  /-- `MIX[0..12]`. -/
  mix : Fin 13 → Byte

/-- P2 of R70 for one entry: output bit `j` is input bit `src j` for a permutation `src` of the bit positions (R58). -/
def IsBitPermutation (P : Byte → Byte) : Prop :=
  ∃ src : Fin 8 → Fin 8, Function.Injective src ∧ ∀ (x : Byte) (j : Fin 8), (P x).getLsbD j = x.getLsbD (src j)

/-- The constraints R70 puts on the tables: P1 (inverse pair), P2 (bit permutations), P3 (distinct). -/
structure Tables.Admissible (T : Tables) : Prop where
  inverse : ∀ (c : Fin 7) (x : Byte), T.permObf c (T.permRec c x) = x
  bitsRec : ∀ c, IsBitPermutation (T.permRec c)
  bitsObf : ∀ c, IsBitPermutation (T.permObf c)
  distinctRec : ∀ a b, a ≠ b → T.permRec a ≠ T.permRec b
  distinctObf : ∀ a b, a ≠ b → T.permObf a ≠ T.permObf b

/-- The permutation function a list `SRC` writes down (R58): output bit `j` is input bit `SRC[j]`. -/
def ofSrc (src : Vector (Fin 8) 8) (x : Byte) : Byte :=
  BitVec.ofFnLE fun j : Fin 8 => x.getLsbD (src[j] : Fin 8)

/-- `SRC_REC` of the SYNTHETIC tables T0 (spec/95_test_vectors.md section 2): not the hardware's tables. -/
def t0SrcRec : Vector (Vector (Fin 8) 8) 7 :=
  #v[#v[7, 6, 5, 4, 3, 2, 1, 0], #v[7, 0, 1, 2, 3, 4, 5, 6], #v[1, 0, 3, 2, 5, 4, 7, 6], #v[2, 0, 1, 5, 3, 4, 7, 6],
    #v[5, 6, 7, 0, 1, 2, 3, 4], #v[3, 7, 1, 5, 2, 6, 0, 4], #v[4, 5, 6, 7, 0, 1, 2, 3]]

/-- `SRC_OBF` of the synthetic tables T0. -/
def t0SrcObf : Vector (Vector (Fin 8) 8) 7 :=
  #v[#v[7, 6, 5, 4, 3, 2, 1, 0], #v[1, 2, 3, 4, 5, 6, 7, 0], #v[1, 0, 3, 2, 5, 4, 7, 6], #v[1, 2, 0, 4, 5, 3, 7, 6],
    #v[3, 4, 5, 6, 7, 0, 1, 2], #v[6, 2, 4, 0, 7, 3, 5, 1], #v[4, 5, 6, 7, 0, 1, 2, 3]]

/-- `MIX` of the synthetic tables T0. -/
def t0Mix : Vector Byte 13 :=
  #v[0x5A, 0x13, 0xC7, 0x08, 0xF1, 0x6E, 0x2B, 0x94, 0xD0, 0x3F, 0xA5, 0x7C, 0xE2]

/-- The synthetic tables T0 (D17). They serve two ends only: to show that R70's constraints can be met, and the test
vectors. The machine never uses them: its own tables are `Config.tables`. -/
def t0 : Tables where
  permRec c := ofSrc t0SrcRec[c]
  permObf c := ofSrc t0SrcObf[c]
  mix i := t0Mix[i]

theorem ofSrc_bit (src : Vector (Fin 8) 8) (x : Byte) (j : Fin 8) :
    (ofSrc src x).getLsbD j = x.getLsbD (src[j] : Fin 8) := by
  simp [ofSrc]

theorem ofSrc_isBitPermutation (src : Vector (Fin 8) 8) (h : ∀ i j : Fin 8, src[i] = src[j] → i = j) :
    IsBitPermutation (ofSrc src) :=
  ⟨fun j => src[j], fun i j => h i j, ofSrc_bit src⟩

/-- T0 meets R70's constraints. -/
theorem t0_admissible : t0.Admissible where
  inverse c x := by
    have back : ∀ (c : Fin 7) (j : Fin 8), t0SrcRec[c][(t0SrcObf[c][j] : Fin 8)] = j := by decide
    apply BitVec.eq_of_getLsbD_eq
    intro i hi
    exact (ofSrc_bit _ _ ⟨i, hi⟩).trans ((ofSrc_bit _ _ _).trans (by rw [back c ⟨i, hi⟩]))
  bitsRec c := ofSrc_isBitPermutation _ ((by decide : ∀ (c : Fin 7) (i j : Fin 8),
    t0SrcRec[c][i] = t0SrcRec[c][j] → i = j) c)
  bitsObf c := ofSrc_isBitPermutation _ ((by decide : ∀ (c : Fin 7) (i j : Fin 8),
    t0SrcObf[c][i] = t0SrcObf[c][j] → i = j) c)
  distinctRec a b hab h := by
    obtain ⟨j, hj⟩ := (by decide +kernel : ∀ a b : Fin 7, a ≠ b →
      ∃ j : Fin 8, t0.permRec a (BitVec.twoPow 8 j) ≠ t0.permRec b (BitVec.twoPow 8 j)) a b hab
    exact hj (congrFun h _)
  distinctObf a b hab h := by
    obtain ⟨j, hj⟩ := (by decide +kernel : ∀ a b : Fin 7, a ≠ b →
      ∃ j : Fin 8, t0.permObf a (BitVec.twoPow 8 j) ≠ t0.permObf b (BitVec.twoPow 8 j)) a b hab
    exact hj (congrFun h _)

/-- Tables together with the proof that they are admissible. The default values only show that such tables exist. -/
structure OpenTables where
  val : Tables := t0
  admissible : val.Admissible := by exact t0_admissible
deriving Inhabited

/-- The machine's tables, known only to be admissible: a constant without a body, so that nothing can be proved of a
value of it (R5, R70, D16, U7; assumption 3). -/
opaque openTables : OpenTables

/-- `PERM_REC`, `PERM_OBF` and `MIX` of the machine. -/
def tables : Tables := openTables.val

/-- P1, P2 and P3 of R70 hold of the machine's tables. -/
theorem tables_admissible : tables.Admissible := openTables.admissible

/-! ## Free values: what the spec calls unspecified (R11, R12, R13, R25, U8). Each is a constant without a body, applied
to the number of the draw (`State.draw`); assumptions 5, 6 and 7. -/

/-- An unspecified value of `K`. -/
opaque freeByte : Nat → Byte

/-- An unspecified value of `ACC`. -/
opaque freeSlots : Nat → Slots

/-- An unspecified value of `IDX`. -/
opaque freeWord : Nat → Word

/-- An unspecified value of `CNT`. -/
opaque freeCount : Nat → BitVec 5

/-- An unspecified value of `BUF`. -/
opaque freeRef : Nat → Nat

end Sys2Proof.Config
end

