-- ==== Sys2Proof/Machine/State.lean ====
section
/-! DEFINITION. The state of the machine (spec/10_state.md R10 to R25), the moves of the host (spec/60_exceptions.md R125,
R126), the reasons a step can stop, and the state after reset (R25). -/

namespace Sys2Proof.Machine

/-- The two directions of the byte transform and of the block operations (R2, R96, R97). -/
inductive Dir where
  | recover
  | obfuscate
deriving DecidableEq, Repr

/-- The operations that reach memory (R23): DIGEST, and RECOVER or OBFUSCATE. -/
inductive SpanOp where
  | digest
  | block (d : Dir)
deriving DecidableEq, Repr

/-- `PHASE` (R13, R99, R126): the part of an operation in progress, with the operation it belongs to and, in the three
loops R99 counts with `j`, the next `j`. Only the cells of R99's table exist. The operation and `j` are state the spec only
implies (assumption 21). -/
inductive Phase where
  /-- `IDLE`: no operation in progress. -/
  | idle
  /-- `CHECK`. -/
  | check (op : SpanOp)
  /-- `SEED`. -/
  | seed (d : Dir)
  /-- `XFORM`. -/
  | xform (d : Dir)
  /-- `SUMINIT`. -/
  | sumInit (op : SpanOp)
  /-- `SUM`. -/
  | sum (op : SpanOp)
  /-- `FIX`, about to do step `j` of the de-collision pass. -/
  | fix (op : SpanOp) (j : Nat)
  /-- `CMP`, about to compare digest byte `j` (RECOVER only). -/
  | cmp (j : Nat)
  /-- `HDR`, about to write digest byte `j` (OBFUSCATE only). -/
  | hdr (j : Nat)
  /-- `DONE`. -/
  | done (op : SpanOp)
deriving DecidableEq, Repr

/-- A move of the host between operations (R60's `host:` lines, R125). -/
inductive HostMove where
  /-- `host: BUFV <- b`. -/
  | writeBufv (b : Bool)
  /-- `host: BUF <- name`: the reference, and the bytes the host's buffer of that name holds (R16, R30, R37). -/
  | writeBuf (ref : Nat) (bytes : List Byte)
  /-- `host: LEN <- n`. -/
  | writeLen (n : Word)
  /-- `host: buf[off] <- v`. -/
  | writeByte (off : Nat) (v : Byte)
  /-- A write of `w` to `CMD`, the operation taken as one transition (the operation level of R9). -/
  | writeCmd (w : Word)
  /-- A write of `w` to `CMD`, the operation taken in the steps of R99 (the step level of R9). -/
  | writeCmdBySteps (w : Word)
  /-- The platform's reset (R130). -/
  | reset
deriving DecidableEq, Repr

/-- The bytes of the current buffer (R23, R30): pairs of an offset and a byte, in the canonical form `Memory.wf`. -/
abbrev Memory := List Host.Cell

/-- The state (R10), with the model's own `draw` and `host` (assumptions 2 and 7). `CMD` "keeps no value" (R15) and is no
field. -/
structure State where
  /-- `K`, the key byte (R11). -/
  k : Byte
  /-- `ACC[0..15]`, the checksum accumulator (R12). -/
  acc : Slots
  /-- `IDX`, the byte index (R13). -/
  idx : Word
  /-- `CNT`, the mismatch counter (R13). -/
  cnt : BitVec 5
  /-- `PHASE` (R13). -/
  phase : Phase
  /-- `BUFV`, a buffer is present (R16). -/
  bufv : Bool
  /-- `BUF`, the buffer reference (R16), of OPEN width. -/
  buf : Nat
  /-- `LEN`, the length operand (R17). -/
  len : Word
  /-- `RES`, the return value (R18). -/
  res : Word
  /-- `ERR`, the error code (R19). -/
  err : BitVec 2
  /-- `DOUT`, the byte result (R20). -/
  dout : Byte
  /-- `DG[0..15]`, the digest result (R21). -/
  dg : Slots
  /-- The current buffer (R23, R30). -/
  mem : Memory
  /-- `EXTENT`: how many bytes lie behind `BUF` (R5, R37). -/
  extent : Nat
  /-- The number of the next free value: the model's own. -/
  draw : Nat
  /-- The host's moves still to come: the model's own. -/
  host : List HostMove
deriving DecidableEq, Repr

/-- Why the machine stops with a fault. -/
inductive Fault where
  /-- A byte at or beyond `EXTENT`, which does not exist (R23), was accessed: raised by a host write of a buffer byte and by
  a sequencer step in a state no run reaches. No operation that passes its checks raises it. Safe: the model stops where the
  spec gives no effect (assumption 11). -/
  | noSuchOffset
deriving DecidableEq, Repr

/-- Why an operation is refused. -/
inductive Refusal where
  /-- Raised by exec's arms that have no meaning yet (none). Safe. -/
  | notModelled (mnemonic : String)
  /-- Raised by DIGEST, RECOVER and OBFUSCATE when `LEN > EXTENT`: the host broke its duty, and "a model must refuse such an
  operation" (R37, U3). Safe (assumption 12). -/
  | hostDutyExtent
deriving DecidableEq, Repr

/-- The outcome of a step. -/
abbrev Result := Host.Outcome State Fault Refusal

/-- The values of R25, with what R25 leaves unspecified drawn as free values number `draw` (assumption 6); the buffer and
the host's coming moves, which reset does not touch (R25, R130), are given. DESIGN CHOICE (assumption 23): `BUF` being
unspecified after reset, which bytes it designates until the host writes it again is open; the model keeps the former
buffer's bytes and `EXTENT` as those of the current buffer. Unsafe. -/
def State.afterReset (draw : Nat) (mem : Memory) (extent : Nat) (host : List HostMove) : State where
  k := Config.freeByte draw
  acc := Config.freeSlots draw
  idx := Config.freeWord draw
  cnt := Config.freeCount draw
  phase := .idle
  bufv := false
  buf := Config.freeRef draw
  len := 0
  res := 0
  err := 0
  dout := 0
  dg := Vector.replicate 16 0
  mem := mem
  extent := extent
  draw := draw + 1
  host := host

/-- The machine right after reset, before the host has supplied a buffer or made a move (R25, R130). -/
def State.reset : State := State.afterReset 0 [] 0 []

end Sys2Proof.Machine
end

