-- ==== Sys2Proof/Machine/Operands.lean ====
section
/-! DEFINITION. The byte arithmetic of spec/00_scope.md R7 and R8, the decoding of the key (spec/30_encoding.md R55) and the
operands of the span operations (R53, spec/20_memory.md R31). -/

namespace Sys2Proof.Machine

/-- `add8` (R7, R8 (a)): addition modulo 256. -/
def add8 (a b : Byte) : Byte := a + b

/-- `not8` (R7, R8 (c)): bitwise complement. -/
def not8 (a : Byte) : Byte := ~~~a

/-- `class = key mod 7`, the key unsigned (R55, R8 (b)). -/
def keyClass (k : Byte) : Fin 7 := ⟨k.toNat % 7, Nat.mod_lt _ (by decide)⟩

/-- `lutIndex = key mod 13`, the key unsigned (R55, R8 (b)). -/
def lutIndex (k : Byte) : Fin 13 := ⟨k.toNat % 13, Nat.mod_lt _ (by decide)⟩

/-- Slot `i mod 16` of sixteen (R86). -/
def slotOf (i : Nat) : Fin 16 := ⟨i % 16, Nat.mod_lt _ (by decide)⟩

/-- The offset at which the bytes summed by an operation begin: 0 for DIGEST, 16 for the payload of a block (R31, R99,
R126). -/
def SpanOp.first : SpanOp → Nat
  | .digest => 0
  | .block _ => Config.headerLen

/-- `L = LEN` as a number, unsigned (R17, R95). -/
def State.length (s : State) : Nat := s.len.toNat

/-- The host keeps its duty `EXTENT >= LEN` (R37). -/
def State.extentCovers (s : State) : Bool := s.length ≤ s.extent

end Sys2Proof.Machine
end

