-- ==== Sys2Proof/Machine/Flags.lean ====
section
/-! DEFINITION. Outcome indications. The CORE has no flags (spec/10_state.md R22): the only ones are `RES` and `ERR`
(R18, R19), whose values for a failed operation spec/60_exceptions.md R110 lists. -/

namespace Sys2Proof.Machine

/-- The error outcomes of R110 that end an operation (IntegrityMismatch is a completion, R112). -/
inductive Failure where
  | missingBuffer (op : SpanOp)
  | undersizedBlock
  | illegalCommand
deriving DecidableEq, Repr

/-- The `ERR` code of a failure (R19, R110). -/
def Failure.code : Failure → BitVec 2
  | .missingBuffer _ => 1
  | .undersizedBlock => 2
  | .illegalCommand => 3

/-- The missing-buffer value of each operation, kept apart by name (R18, R111, C4). -/
def missingValue : SpanOp → Word
  | .digest => Config.digestMissing
  | .block .recover => Config.recMissing
  | .block .obfuscate => Config.obfMissing

/-- The `RES` value of a failure (R18, R110). -/
def Failure.value : Failure → Word
  | .missingBuffer op => missingValue op
  | .undersizedBlock => Config.resUndersized
  | .illegalCommand => Config.resIllegal

/-- The entry checks of an operation, in their order: MissingBuffer, then, for a block operation only, UndersizedBlock
(R89, R95, R116). -/
def entryFailure (op : SpanOp) (s : State) : Option Failure :=
  if s.bufv then
    match op with
    | .digest => none
    | .block _ => if s.length < Config.minLen then some .undersizedBlock else none
  else some (.missingBuffer op)

end Sys2Proof.Machine
end

