-- ==== Sys2Proof/Machine/Ops.lean ====
section
/-! DEFINITION. The named operations over memory (spec/20_memory.md R30 to R32) and registers: `fail`, the error entry
(spec/60_exceptions.md R117), and the ends of the operations (spec/42_block_codec.md R99, `DONE`). -/

namespace Sys2Proof.Machine

/-- What an offset that is not listed reads as, if it is below `EXTENT`. DESIGN CHOICE (assumption 10): the host supplies
every byte of its buffer, and the byte 0x00 is simply not listed; unsafe only if a buffer is placed with fewer bytes than
its extent. -/
def Memory.blank : Byte := 0

/-- The byte at an offset (`MemRead`, R32). -/
def Memory.read : Memory → Nat → Byte
  | [], _ => Memory.blank
  | (b, v) :: m, a => if b = a then v else Memory.read m a

/-- Removes what is listed for an offset. -/
def Memory.erase (m : Memory) (a : Nat) : Memory := m.filter fun c => c.1 ≠ a

/-- Lists `v` at `a`, before the first listed offset above `a`. -/
def Memory.insert : Memory → Nat → Byte → Memory
  | [], a, v => [(a, v)]
  | (b, x) :: m, a, v => if a < b then (a, v) :: (b, x) :: m else (b, x) :: Memory.insert m a v

/-- Stores a byte at an offset (`MemWrite`, R32), keeping the canonical form. -/
def Memory.write (m : Memory) (a : Nat) (v : Byte) : Memory :=
  if v = Memory.blank then m.erase a else Memory.insert (m.erase a) a v

/-- The memory that holds the given bytes from offset `a` on. -/
def Memory.ofBytes : Nat → List Byte → Memory
  | _, [] => []
  | a, v :: bs => if v = Memory.blank then Memory.ofBytes (a + 1) bs else (a, v) :: Memory.ofBytes (a + 1) bs

/-- The `n` bytes from offset `a` on, in order. -/
def Memory.bytes (m : Memory) (a n : Nat) : List Byte := (List.range' a n).map m.read

/-- The canonical form: offsets strictly rising, no entry equal to what an unlisted offset reads as. -/
abbrev Memory.wf (m : Memory) : Prop :=
  m.Pairwise (fun x y => x.1 < y.1) ∧ ∀ c ∈ m, c.2 ≠ Memory.blank

/-- `fail <Error>(res)` (R7, R117): `ERR <- code`, `RES <- res`, `PHASE <- IDLE`, and nothing else. -/
def State.fail (s : State) (f : Failure) : State :=
  { s with err := f.code, res := f.value, phase := .idle }

/-- The end of RECB and OBFB (R75, R76): `DOUT`, `RES` and `ERR` only. -/
def State.endByte (s : State) (v : Byte) : State :=
  { s with dout := v, res := 0, err := 0 }

/-- The end of DIGEST (R89, R126): `DG`, `RES` and `ERR` are written and the operation is over. `ACC` and `IDX`, which it
used, then hold no specified value (R12, R13): free values (assumption 5). -/
def State.endDigest (s : State) (d : Slots) : State :=
  { s with
    dg := d, res := 0, err := 0, phase := .idle
    acc := Config.freeSlots s.draw, idx := Config.freeWord s.draw, draw := s.draw + 1 }

/-- The end of RECOVER (R96, R99): `RES <- zext_32(CNT)`, `ERR <- 0`. `K`, `ACC`, `IDX` and `CNT` then hold no specified
value (R11, R12, R13): free values (assumption 5). -/
def State.endRecover (s : State) (count : BitVec 5) : State :=
  { s with
    res := count.setWidth 32, err := 0, phase := .idle
    k := Config.freeByte s.draw, acc := Config.freeSlots s.draw, idx := Config.freeWord s.draw
    cnt := Config.freeCount s.draw, draw := s.draw + 1 }

/-- The end of OBFUSCATE (R97, R99): `RES <- 0`, `ERR <- 0`. `K`, `ACC` and `IDX` then hold no specified value: free values
(assumption 5). `CNT` is not written (R97). -/
def State.endObfuscate (s : State) : State :=
  { s with
    res := 0, err := 0, phase := .idle
    k := Config.freeByte s.draw, acc := Config.freeSlots s.draw, idx := Config.freeWord s.draw, draw := s.draw + 1 }

/-- The frame of every span operation: the entry checks (R89, R95), then the host's duty (R37, U3), then the body. -/
def spanOperation (op : SpanOp) (s : State) (body : State) : Result :=
  match entryFailure op s with
  | some f => .next (s.fail f)
  | none => if s.extentCovers then .next body else .refused .hostDutyExtent

end Sys2Proof.Machine
end

