-- ==== Sys2Proof/Machine/Checksum.lean ====
section
/-! DEFINITION. The checksum engine and the operation DIGEST (spec/41_checksum.md). -/

namespace Sys2Proof.Machine

/-- One addition of the accumulation (R86): `ACC[i mod 16] <- add8(ACC[i mod 16], b)`. -/
def addSlot (a : Slots) (i : Nat) (b : Byte) : Slots :=
  a.set (slotOf i) (add8 a[slotOf i] b)

/-- The accumulation of a span whose first byte has position `i` (R86). -/
def accumulate : Slots → Nat → List Byte → Slots
  | a, _, [] => a
  | a, i, b :: bs => accumulate (addSlot a i b) (i + 1) bs

/-- Step `j` of the de-collision pass, `j = 1..15` (R87): complement a slot equal to its left neighbour as it now stands. -/
def fixSlot (a : Slots) (j : Nat) : Slots :=
  if h : 1 ≤ j ∧ j < 16 then
    if a[j - 1]'(by omega) = a[j]'h.2 then a.set j (not8 (a[j]'h.2)) h.2 else a
  else a

/-- The de-collision pass (R87): steps 1 to 15, left to right, once. -/
def decollide (a : Slots) : Slots := (List.range' 1 15).foldl fixSlot a

/-- `digest(s)` (R88). -/
def digest (bs : List Byte) : Slots := decollide (accumulate Config.magic 0 bs)

/-- The bytes an operation sums, taken from a memory: `[0, L)` for DIGEST, the payload `[16, L)` for a block (R89, R96,
R97). -/
def spanBytes (op : SpanOp) (m : Memory) (L : Nat) : List Byte := m.bytes op.first (L - op.first)

/-- DIGEST (R89). -/
def execDigest (s : State) : Result :=
  spanOperation .digest s (s.endDigest (digest (spanBytes .digest s.mem s.length)))

end Sys2Proof.Machine
end

