-- ==== Sys2Proof/Machine/Transform.lean ====
section
/-! DEFINITION. The byte transform and the operations RECB and OBFB (spec/40_byte_transform.md). The functions take the
tables as an argument; the machine's operations use `Config.tables`. -/

namespace Sys2Proof.Machine

open Sys2Proof.Config (Tables)

/-- `recb(k, c)` (R73): permute the ciphertext byte, then XOR the constant, then the key. -/
def recb (T : Tables) (k c : Byte) : Byte :=
  T.permRec (keyClass k) c ^^^ T.mix (lutIndex k) ^^^ k

/-- `obfb(k, p)` (R74): XOR the key and the constant, then permute. -/
def obfb (T : Tables) (k p : Byte) : Byte :=
  T.permObf (keyClass k) (p ^^^ k ^^^ T.mix (lutIndex k))

/-- One payload byte in a direction: the new byte and the next key, which is the byte in ciphertext form in both
directions (R96, R97, R98, R133). -/
def transformByte (T : Tables) (d : Dir) (k x : Byte) : Byte × Byte :=
  match d with
  | .recover => (recb T k x, x)
  | .obfuscate => (obfb T k x, obfb T k x)

/-- RECB (R75). -/
def execRecb (key data : Byte) (s : State) : Result :=
  .next (s.endByte (recb Config.tables key data))

/-- OBFB (R76). -/
def execObfb (key data : Byte) (s : State) : Result :=
  .next (s.endByte (obfb Config.tables key data))

end Sys2Proof.Machine
end

