-- ==== Sys2Proof/Machine/Block.lean ====
section
/-! DEFINITION. The block codec: the operations RECOVER and OBFUSCATE at the operation level (spec/42_block_codec.md). -/

namespace Sys2Proof.Machine

open Sys2Proof.Config (Tables)

/-- `n` payload bytes from offset `i` on, left to right, in place, with the running key `k` (the loops of R96 and R97). -/
def xformLoop (T : Tables) (d : Dir) : Nat → Nat → Byte → Memory → Memory
  | 0, _, _, m => m
  | n + 1, i, k, m =>
    xformLoop T d n (i + 1) (transformByte T d k (m.read i)).2 (m.write i (transformByte T d k (m.read i)).1)

/-- The payload `[16, L)` transformed in place, the seed key read from offset 15 (R96, R97). -/
def xformPayload (T : Tables) (d : Dir) (m : Memory) (L : Nat) : Memory :=
  xformLoop T d (L - Config.headerLen) Config.headerLen (m.read Config.seedOffset) m

/-- The digest of the payload `[16, L)` as it stands (R96, R97). -/
def payloadDigest (m : Memory) (L : Nat) : Slots := digest (m.bytes Config.headerLen (L - Config.headerLen))

/-- The number of header positions at which a digest and the header differ, 0 to 16 (R96, R102). -/
def mismatchCount (d : Slots) (m : Memory) : Nat := (List.finRange 16).countP fun j : Fin 16 => d[j] ≠ m.read j

/-- The header with a digest written over it, bytes 0 to 15 (R97). -/
def writeHeader (d : Slots) (m : Memory) : Memory := (List.finRange 16).foldl (fun m (j : Fin 16) => m.write j d[j]) m

/-- The buffer OBFUSCATE leaves (R97): the digest of the plaintext payload written over the header, then the payload
transformed, the seed read from the new header (R134). -/
def obfuscatedMemory (T : Tables) (m : Memory) (L : Nat) : Memory :=
  xformPayload T .obfuscate (writeHeader (payloadDigest m L) m) L

/-- The buffer RECOVER leaves (R96): the payload transformed, the header untouched. -/
def recoveredMemory (T : Tables) (m : Memory) (L : Nat) : Memory := xformPayload T .recover m L

/-- The count RECOVER returns for the buffer it leaves (R96): the digest of the recovered payload against the header. -/
def recoveredCount (m : Memory) (L : Nat) : Nat := mismatchCount (payloadDigest m L) m

/-- RECOVER with given tables (R96). -/
def recoverWith (T : Tables) (s : State) : Result :=
  spanOperation (.block .recover) s
    ({ s with mem := recoveredMemory T s.mem s.length }.endRecover
      (BitVec.ofNat 5 (recoveredCount (recoveredMemory T s.mem s.length) s.length)))

/-- OBFUSCATE with given tables (R97). -/
def obfuscateWith (T : Tables) (s : State) : Result :=
  spanOperation (.block .obfuscate) s
    ({ s with mem := obfuscatedMemory T s.mem s.length }.endObfuscate)

/-- RECOVER (R96). -/
def execRecover (s : State) : Result := recoverWith Config.tables s

/-- OBFUSCATE (R97). -/
def execObfuscate (s : State) : Result := obfuscateWith Config.tables s

end Sys2Proof.Machine
end

