-- ==== Sys2Proof/Machine/Dispatch.lean ====
section
/-! DEFINITION. What each operation does at the operation level (spec/00_scope.md R9, spec/30_encoding.md R51): one arm per
constructor of Instr. -/

namespace Sys2Proof.Machine

def exec (i : Instr) (s : State) : Host.Outcome State Fault Refusal :=
  match i with
  | .recb key data => Sys2Proof.Machine.execRecb key data s
  | .obfb key data => Sys2Proof.Machine.execObfb key data s
  | .digest => Sys2Proof.Machine.execDigest s
  | .recover => Sys2Proof.Machine.execRecover s
  | .obfuscate => Sys2Proof.Machine.execObfuscate s

end Sys2Proof.Machine
end

