-- ==== Sys2Proof/Machine/Sequencer.lean ====
section
/-! DEFINITION. The step-level sequencer (spec/42_block_codec.md R99, spec/60_exceptions.md R126): one transition per line of
R99's table, and one more when a counted loop ends (assumption 21). Every access to memory is checked against `EXTENT`. -/

namespace Sys2Proof.Machine

open Sys2Proof.Config (Tables)

/-- `MemRead(off, 1)` by the sequencer: `k` applied to the byte, if the offset exists. -/
def withByte (s : State) (off : Nat) (k : Byte → State) : Result :=
  if off < s.extent then .next (k (s.mem.read off)) else .fault .noSuchOffset

/-- The write of `CMD` that starts a span operation: `PHASE <- CHECK`. DESIGN CHOICE (assumption 21): at the step level the
write is a transition of its own, before the `CHECK` step, so a failing span command takes two transitions, where R126 counts
it as one step of the CORE. Safe: no host sees a state between the two. -/
def seqStart (op : SpanOp) (s : State) : State := { s with phase := .check op }

/-- The phase after `CHECK` (R99's order of phases). -/
def afterCheck : SpanOp → Phase
  | .digest => .sumInit .digest
  | .block .recover => .seed .recover
  | .block .obfuscate => .sumInit (.block .obfuscate)

/-- The phase after `XFORM`. -/
def afterXform : Dir → Phase
  | .recover => .sumInit (.block .recover)
  | .obfuscate => .done (.block .obfuscate)

/-- The state when `FIX` ends: DIGEST is `DONE`, RECOVER enters `CMP` with `CNT <- 0`, OBFUSCATE enters `HDR`. -/
def seqAfterFix (op : SpanOp) (s : State) : State :=
  match op with
  | .digest => { s with phase := .done .digest }
  | .block .recover => { s with phase := .cmp 0, cnt := 0 }
  | .block .obfuscate => { s with phase := .hdr 0 }

/-- `CHECK`: the entry checks, and the refusal of a broken host duty (R95, R37). -/
def seqCheck (op : SpanOp) (s : State) : Result := spanOperation op s { s with phase := afterCheck op }

/-- `SEED`: `K <- MemRead(15,1)`, `IDX <- 16`. -/
def seqSeed (d : Dir) (s : State) : Result :=
  withByte s Config.seedOffset fun b =>
    { s with k := b, idx := BitVec.ofNat 32 Config.headerLen, phase := .xform d }

/-- `XFORM`: one payload byte while `IDX < L`. -/
def seqXform (T : Tables) (d : Dir) (s : State) : Result :=
  if s.idx.toNat < s.length then
    withByte s s.idx.toNat fun x =>
      { s with
        mem := s.mem.write s.idx.toNat (transformByte T d s.k x).1
        k := (transformByte T d s.k x).2, idx := s.idx + 1 }
  else .next { s with phase := afterXform d }

/-- `SUMINIT`: `ACC <- MAGIC`, `IDX` at the first summed offset. -/
def seqSumInit (op : SpanOp) (s : State) : Result :=
  .next { s with acc := Config.magic, idx := BitVec.ofNat 32 op.first, phase := .sum op }

/-- `SUM`: one byte into slot `IDX mod 16` while `IDX < L`. -/
def seqSum (op : SpanOp) (s : State) : Result :=
  if s.idx.toNat < s.length then
    withByte s s.idx.toNat fun b => { s with acc := addSlot s.acc s.idx.toNat b, idx := s.idx + 1 }
  else .next { s with phase := .fix op 1 }

/-- `FIX`: step `j` of the de-collision pass, for `j` up to 15. -/
def seqFix (op : SpanOp) (j : Nat) (s : State) : Result :=
  if j < 16 then .next { s with acc := fixSlot s.acc j, phase := .fix op (j + 1) } else .next (seqAfterFix op s)

/-- `CMP`: digest byte `j` against header byte `j`, for `j` up to 15. -/
def seqCmp (j : Nat) (s : State) : Result :=
  if h : j < 16 then
    withByte s j fun b => { s with cnt := if s.acc[j] ≠ b then s.cnt + 1 else s.cnt, phase := .cmp (j + 1) }
  else .next { s with phase := .done (.block .recover) }

/-- `HDR`: digest byte `j` into header byte `j`, for `j` up to 15. -/
def seqHdr (j : Nat) (s : State) : Result :=
  if h : j < 16 then
    if j < s.extent then .next { s with mem := s.mem.write j s.acc[j], phase := .hdr (j + 1) } else .fault .noSuchOffset
  else .next { s with phase := .seed .obfuscate }

/-- `DONE`: the results, and `PHASE <- IDLE`. -/
def seqDone (op : SpanOp) (s : State) : Result :=
  match op with
  | .digest => .next (s.endDigest s.acc)
  | .block .recover => .next (s.endRecover s.cnt)
  | .block .obfuscate => .next s.endObfuscate

/-- One step of the CORE while an operation is in progress (R99). In `IDLE` it has no step to take. -/
def seqStep (T : Tables) (s : State) : Result :=
  match s.phase with
  | .idle => .next s
  | .check op => seqCheck op s
  | .seed d => seqSeed d s
  | .xform d => seqXform T d s
  | .sumInit op => seqSumInit op s
  | .sum op => seqSum op s
  | .fix op j => seqFix op j s
  | .cmp j => seqCmp j s
  | .hdr j => seqHdr j s
  | .done op => seqDone op s

end Sys2Proof.Machine
end

