-- ==== Sys2Proof/Machine/HostPort.lean ====
section
/-! DEFINITION. The host's side of the machine (spec/60_exceptions.md R125, R126): the registers it can read, the issue of a
command word at either level of R9, and the effect of each of its moves. -/

namespace Sys2Proof.Machine

/-- The registers the host can read (R16 to R21). `CMD` has no read (R15, U10), and `K`, `ACC`, `IDX`, `CNT` and `PHASE` are
internal (R11 to R13). -/
inductive HostReg where
  | bufv
  | buf
  | len
  | res
  | err
  | dout
  | dg (j : Fin 16)
deriving DecidableEq, Repr

/-- What a host read of a register returns, as an unsigned number: the last written value. A read changes nothing (R125), so
it is a function of the state (assumption 14). DESIGN CHOICE (assumption 24): R125 allows reads only between operations and
the spec does not say what a read during one returns; the function answers in every `PHASE` with the register's current
value. Unsafe for a host that reads during an operation. -/
def hostRead (r : HostReg) (s : State) : Nat :=
  match r with
  | .bufv => if s.bufv then 1 else 0
  | .buf => s.buf
  | .len => s.len.toNat
  | .res => s.res.toNat
  | .err => s.err.toNat
  | .dout => s.dout.toNat
  | .dg j => s.dg[j].toNat

/-- The host's reading of an OBFUSCATE result: signed (R18). In every `PHASE`, as `hostRead` (assumption 24). -/
def hostReadStatus (s : State) : Int := s.res.toInt

/-- A write of `w` to `CMD` at the operation level (R15): the operation it selects is performed to its end, or the word is
illegal and fails (R54, R114). -/
def issue (w : Word) (s : State) : Result :=
  match decode w with
  | .ok i => exec i s
  | .error _ => .next (s.fail .illegalCommand)

/-- A write of `w` to `CMD` at the step level (R126): a span operation enters `CHECK`; RECB, OBFB and an illegal word are one
step at either level. -/
def issueBySteps (w : Word) (s : State) : Result :=
  match decode w with
  | .ok (.recb key data) => exec (.recb key data) s
  | .ok (.obfb key data) => exec (.obfb key data) s
  | .ok .digest => .next (seqStart .digest s)
  | .ok .recover => .next (seqStart (.block .recover) s)
  | .ok .obfuscate => .next (seqStart (.block .obfuscate) s)
  | .error _ => .next (s.fail .illegalCommand)

/-- The effect of a host move between operations (R125, R130). DESIGN CHOICE (assumption 23): reset keeps the former
buffer's bytes and `EXTENT` as those of the current buffer, so `BUFV <- 1` after it, with no write of `BUF`, lets an operation
act on the former buffer; R25 leaves `BUF` unspecified there. Unsafe. -/
def hostMove (a : HostMove) (s : State) : Result :=
  match a with
  | .writeBufv b => .next { s with bufv := b }
  | .writeBuf ref bytes => .next { s with buf := ref, mem := Memory.ofBytes 0 bytes, extent := bytes.length }
  | .writeLen n => .next { s with len := n }
  | .writeByte off v => if off < s.extent then .next { s with mem := s.mem.write off v } else .fault .noSuchOffset
  | .writeCmd w => issue w s
  | .writeCmdBySteps w => issueBySteps w s
  | .reset => .next (State.afterReset s.draw s.mem s.extent s.host)

/-- The host's turn: its next move, or, if it makes none, nothing: "between operations it simply holds its result registers"
(R124). -/
def hostTurn (s : State) : Result :=
  match s.host with
  | [] => .next s
  | a :: rest => hostMove a { s with host := rest }

/-- The CORE's turn: one step of the sequencer with the machine's tables (R99, R126). -/
def coreTurn (s : State) : Result := seqStep Config.tables s

/-- `s` with the operation of command word `w` as the host's very next move, before any it had. -/
def placeCommand (s : State) (w : Word) : State := { s with phase := .idle, host := .writeCmd w :: s.host }

end Sys2Proof.Machine
end

