-- ==== Sys2Proof/Machine/Step.lean ====
section
/-! DEFINITION. One step of the machine (spec/60_exceptions.md R126). -/

namespace Sys2Proof.Machine

/-- One step: the host moves while `PHASE = IDLE`, the CORE while it is not (R126). -/
def step (s : State) : Host.Outcome State Fault Refusal :=
  if s.phase = .idle then hostTurn s else coreTurn s

/-- `s` with the command word whose low `nbits` bits are those of `w` as the next thing the host writes to `CMD`: the very
next step performs it. The CORE fetches no instructions (R13, R44), so this stands for the host's issue (assumption 2). -/
def State.withFetchWord (s : State) (nbits w : Nat) : State := placeCommand s (tableWord nbits w)

end Sys2Proof.Machine
end

