-- ==== Sys2Proof/Safety.lean ====
section
/-! DEFINITION. What counts as a safe run, and the vocabulary the statements use: the invariant of the machine, the host's
duties (spec/60_exceptions.md R125), and what it means to leave registers alone. -/

namespace Sys2Proof.Machine

/-- No two adjacent slots are equal (R91). -/
def AdjacentDistinct (d : Slots) : Prop := ∀ j : Fin 15, d[j.castSucc] ≠ d[j.succ]

/-- A buffer is present and covers `LEN` (R37): DIGEST completes. -/
def SpanReady (s : State) : Prop := s.bufv = true ∧ s.length ≤ s.extent

/-- A buffer is present, holds a block, and covers `LEN` (R37, R95): RECOVER and OBFUSCATE complete. -/
def BlockReady (s : State) : Prop := SpanReady s ∧ 16 ≤ s.length

/-- The operand registers, the extent and the host's coming moves are the same: what the CORE never writes (R16, R17). -/
def SameOperands (s t : State) : Prop :=
  t.bufv = s.bufv ∧ t.buf = s.buf ∧ t.len = s.len ∧ t.extent = s.extent ∧ t.host = s.host

/-- The registers the host reads results from are the same (R18 to R21). -/
def SameResults (s t : State) : Prop :=
  t.res = s.res ∧ t.err = s.err ∧ t.dout = s.dout ∧ t.dg = s.dg

/-- Every byte of the buffer reads the same, but for offsets in `written`. -/
def SameBytesOutside (written : Nat → Prop) (s t : State) : Prop :=
  ∀ o, ¬ written o → t.mem.read o = s.mem.read o

/-- `RES` and `ERR` fit together (R18, R19, R110): each error code has its value, and a completion returns at most 16. -/
def OutcomeFits (s : State) : Prop :=
  (s.err = 0 ∧ s.res.toNat ≤ 16) ∨ (s.err = 1 ∧ s.res = 0xFFFFFFFF) ∨
    (s.err = 2 ∧ s.res = 0xFFFFFFFE) ∨ (s.err = 3 ∧ s.res = 0xFFFFFFFD)

/-- The entry checks of an operation were passed and the host keeps its duty. -/
def Passed (op : SpanOp) (s : State) : Prop :=
  s.bufv = true ∧ s.length ≤ s.extent ∧ op.first ≤ s.length

/-- What holds in each phase of an operation in progress (R99). -/
def SequencerFits (s : State) : Prop :=
  match s.phase with
  | .idle => True
  | .check _ => True
  | .seed d => Passed (.block d) s
  | .xform d => Passed (.block d) s ∧ 16 ≤ s.idx.toNat ∧ s.idx.toNat ≤ s.length
  | .sumInit op => Passed op s
  | .sum op => Passed op s ∧ op.first ≤ s.idx.toNat ∧ s.idx.toNat ≤ s.length
  | .fix op j => Passed op s ∧ 1 ≤ j ∧ j ≤ 16 ∧ ∀ i : Fin 15, i.val + 1 < j → s.acc[i.castSucc] ≠ s.acc[i.succ]
  | .cmp j => Passed (.block .recover) s ∧ j ≤ 16 ∧ s.cnt.toNat ≤ j
  | .hdr j => Passed (.block .obfuscate) s ∧ j ≤ 16
  | .done .digest => AdjacentDistinct s.acc
  | .done (.block .recover) => s.cnt.toNat ≤ 16
  | .done (.block .obfuscate) => True

/-- The invariant of the machine. -/
structure MachineInv (s : State) : Prop where
  /-- The memory is in canonical form. -/
  memWf : Memory.wf s.mem
  /-- Only offsets that exist are listed (R23). -/
  memInside : ∀ c ∈ s.mem, c.1 < s.extent
  /-- `RES` and `ERR` fit together. -/
  outcome : OutcomeFits s
  /-- `DG` holds its reset value or a digest without equal neighbours (R21, R25, R91). -/
  digest : s.dg = Vector.replicate 16 0 ∨ AdjacentDistinct s.dg
  /-- The sequencer is in a state it can be in. -/
  sequencer : SequencerFits s

/-- The command words that carry the duty `EXTENT >= LEN`: those that issue DIGEST, RECOVER or OBFUSCATE, at the level they
are issued at (R37, R125). A byte operation carries none (R125), nor does an illegal word, which issues no operation (R116). -/
def issuesSpanOperation (w : Word) : Bool :=
  match decode w with
  | .ok (.recb _ _) => false
  | .ok (.obfb _ _) => false
  | .ok .digest => true
  | .ok .recover => true
  | .ok .obfuscate => true
  | .error _ => false

/-- The host's duties for its next move (R37, R125): a span operation is issued with a buffer present only if the buffer
covers `LEN`, and only bytes that exist are written (R23). -/
def NextMoveDutiful (s : State) : Prop :=
  match s.host with
  | [] => True
  | .writeByte off _ :: _ => off < s.extent
  | .writeCmd w :: _ => issuesSpanOperation w = true → s.bufv = true → s.length ≤ s.extent
  | .writeCmdBySteps w :: _ => issuesSpanOperation w = true → s.bufv = true → s.length ≤ s.extent
  | .writeBufv _ :: _ => True
  | .writeBuf _ _ :: _ => True
  | .writeLen _ :: _ => True
  | .reset :: _ => True

/-- A run of `n` steps is safe when it ends in a state: no fault and no refusal on the way. -/
def SafeRun (n : Nat) (s : State) : Prop := ∃ t : State, Host.Core.run core n s = .next t

/-- The sum of the span bytes whose positions are `j` modulo 16 (R86). -/
def slotSum (bs : List Byte) (j : Nat) : Nat :=
  (((List.range bs.length).filter fun i => i % 16 = j).map fun i => (bs.getD i 0).toNat).sum

/-- The number of 1 bits of a byte (R72). -/
def onesOf (x : Byte) : Nat := (List.finRange 8).countP fun j : Fin 8 => x.getLsbD j

/-- The command word of a block operation (R52). -/
def blockWord : Dir → Word
  | .recover => 0x00000004
  | .obfuscate => 0x00000005

end Sys2Proof.Machine
end

