-- ==== Sys2Proof/Certificates/Slice0/Obligations.lean ====
section
/-! DEFINITION. The statements for the provers, each a Prop about the machine. -/

open Sys2Proof Sys2Proof.Machine
open Sys2Proof.Config (Tables IsBitPermutation)

/-! ## Encoding -/

/-- R52, R60 and the words of 95_test_vectors.md 3.3 and 3.6: sample words decode to the operations they stand for. -/
def Obligations.SampleWordsDecode : Prop :=
  decode 0x00241001 = .ok (.recb 0x10 0x24) ∧ decode 0x00FFFF02 = .ok (.obfb 0xFF 0xFF) ∧
    decode 0x0081C801 = .ok (.recb 0xC8 0x81) ∧ decode 0x0012FE02 = .ok (.obfb 0xFE 0x12) ∧
    decode 3 = .ok .digest ∧ decode 4 = .ok .recover ∧ decode 5 = .ok .obfuscate

/-- R60, R52: decoding the command word of any operation gives that operation back, every `key` and `data` included. -/
def Obligations.DecodeOfEncode : Prop := ∀ i : Instr, decode (encode i) = .ok i

/-- R52, R59: a legal word is the command word of the operation it decodes to, so no two words mean the same operation. -/
def Obligations.EncodeOfDecode : Prop := ∀ (w : Word) (i : Instr), decode w = .ok i → encode i = w

/-- R52: a word selects an operation exactly by mask and match, with the free fields `w[15:8]` and `w[23:16]`; a word that
matches no row is illegal. -/
def Obligations.DecodeByMaskAndMatch : Prop :=
  ∀ w : Word,
    (w &&& 0xFF0000FF = 0x00000001 → decode w = .ok (.recb (w.extractLsb' 8 8) (w.extractLsb' 16 8))) ∧
    (w &&& 0xFF0000FF = 0x00000002 → decode w = .ok (.obfb (w.extractLsb' 8 8) (w.extractLsb' 16 8))) ∧
    (w &&& 0xFFFFFFFF = 0x00000003 → decode w = .ok .digest) ∧
    (w &&& 0xFFFFFFFF = 0x00000004 → decode w = .ok .recover) ∧
    (w &&& 0xFFFFFFFF = 0x00000005 → decode w = .ok .obfuscate) ∧
    (commandLegal w = false → ∃ e, decode w = .error e)

/-- R54, R114: an illegal word, whatever the operands, fails with `ERR = 3`, `RES = 0xFFFFFFFD` and changes nothing
else. Each of R54's conditions is a clause of its own, and the last is that the word matches no row of R52. -/
def Obligations.IllegalWordFails : Prop :=
  ∀ (s : State) (w : Word) (rest : List HostMove), s.phase = .idle → s.host = .writeCmd w :: rest →
    ((w.extractLsb' 0 3).toNat = 0 ∨ (w.extractLsb' 0 3).toNat = 6 ∨ (w.extractLsb' 0 3).toNat = 7 ∨
      w.extractLsb' 24 8 ≠ 0#8 ∨ w.extractLsb' 3 5 ≠ 0#5 ∨
      (3 ≤ (w.extractLsb' 0 3).toNat ∧ (w.extractLsb' 0 3).toNat ≤ 5 ∧ w.extractLsb' 8 16 ≠ 0#16) ∨
      commandLegal w = false) →
    step s = .next { s with host := rest, err := 3, res := 0xFFFFFFFD }

/-- R15, R51: when the host writes a word that decodes to an operation, the step is exec of that operation, the move
consumed. -/
def Obligations.StepRunsDecodedOperation : Prop :=
  ∀ (s : State) (w : Word) (rest : List HostMove) (i : Instr), s.phase = .idle → s.host = .writeCmd w :: rest →
    decode w = .ok i → step s = exec i { s with host := rest }

/-- R55: the selectors are the remainders of the unsigned key; every pair occurs for a key below 91; keys 91 or 182 apart
share the pair, in both directions, and differ only as XOR operands. -/
def Obligations.KeySelectors : Prop :=
  (∀ k : Byte, (keyClass k).val = k.toNat % 7 ∧ (lutIndex k).val = k.toNat % 13) ∧
    (∀ (c : Fin 7) (l : Fin 13), ∃ k : Byte, k.toNat < 91 ∧ keyClass k = c ∧ lutIndex k = l) ∧
    ∀ (T : Tables) (k x : Byte) (n : Nat), n = 91 ∨ n = 182 → k.toNat + n ≤ 255 →
      keyClass (k + BitVec.ofNat 8 n) = keyClass k ∧ lutIndex (k + BitVec.ofNat 8 n) = lutIndex k ∧
      recb T (k + BitVec.ofNat 8 n) x = recb T k x ^^^ k ^^^ (k + BitVec.ofNat 8 n) ∧
      obfb T (k + BitVec.ofNat 8 n) x = obfb T k (x ^^^ k ^^^ (k + BitVec.ofNat 8 n))

/-! ## The byte transform -/

/-- R73, R75: RECB completes in every state; it writes `DOUT`, `RES` and `ERR` and nothing else; `DATA = 0` gives
`MIX[KEY mod 13] xor KEY`. -/
def Obligations.RecbResult : Prop :=
  ∀ (key data : Byte) (s : State),
    exec (.recb key data) s = .next
      { s with
        dout := Config.tables.permRec (Fin.ofNat 7 key.toNat) data ^^^ Config.tables.mix (Fin.ofNat 13 key.toNat) ^^^ key
        res := 0, err := 0 } ∧
    exec (.recb key 0) s = .next
      { s with dout := Config.tables.mix (Fin.ofNat 13 key.toNat) ^^^ key, res := 0, err := 0 }

/-- R74, R76: OBFB completes in every state; it writes `DOUT`, `RES` and `ERR` and nothing else;
`DATA = MIX[KEY mod 13] xor KEY` gives 0, and RECB with the same key on the result gives `DATA` back. -/
def Obligations.ObfbResult : Prop :=
  ∀ (key data : Byte) (s : State),
    exec (.obfb key data) s = .next
      { s with
        dout := Config.tables.permObf (Fin.ofNat 7 key.toNat) (data ^^^ key ^^^ Config.tables.mix (Fin.ofNat 13 key.toNat))
        res := 0, err := 0 } ∧
    exec (.obfb key (Config.tables.mix (Fin.ofNat 13 key.toNat) ^^^ key)) s = .next
      { s with dout := 0, res := 0, err := 0 } ∧
    ∀ t, exec (.obfb key data) s = .next t → exec (.recb key t.dout) t = .next { t with dout := data, res := 0, err := 0 }

/-- R70: the machine's tables are admissible, and of admissible tables the two are inverse in both orders, each entry is a
permutation of bit positions, those of the two directions inverse to each other, and the entries of a direction are
distinct. -/
def Obligations.TablesKeepTheirContract : Prop :=
  Config.tables.Admissible ∧ ∀ T : Tables, T.Admissible →
    (∀ (c : Fin 7) (x : Byte), T.permObf c (T.permRec c x) = x ∧ T.permRec c (T.permObf c x) = x) ∧
    (∀ c : Fin 7, ∃ srcRec srcObf : Fin 8 → Fin 8,
      (∀ j, srcObf (srcRec j) = j) ∧ (∀ j, srcRec (srcObf j) = j) ∧
      ∀ (x : Byte) (j : Fin 8), (T.permRec c x).getLsbD j = x.getLsbD (srcRec j) ∧
        (T.permObf c x).getLsbD j = x.getLsbD (srcObf j)) ∧
    ∀ a b : Fin 7, a ≠ b → T.permRec a ≠ T.permRec b ∧ T.permObf a ≠ T.permObf b

/-- R72: what holds of every entry of an admissible table. -/
def Obligations.BitPermutationLaws : Prop :=
  ∀ T : Tables, T.Admissible → ∀ (c : Fin 7) (P : Byte → Byte), P = T.permRec c ∨ P = T.permObf c →
    P 0x00 = 0x00 ∧ P 0xFF = 0xFF ∧ (∀ a b, P (a ^^^ b) = P a ^^^ P b) ∧ (∀ a, P (not8 a) = not8 (P a)) ∧
    (∀ a, onesOf (P a) = onesOf a) ∧
    (∀ i : Fin 8, ∃ j : Fin 8, P (BitVec.twoPow 8 i) = BitVec.twoPow 8 j) ∧
    ∀ Q : Byte → Byte, IsBitPermutation Q → (∀ i : Fin 8, Q (BitVec.twoPow 8 i) = P (BitVec.twoPow 8 i)) → Q = P

/-- R77: for a fixed key the two transforms are inverse to each other and bijections, and so are OBFB followed by RECB of
its result and RECB followed by OBFB of its result. -/
def Obligations.ByteTransformsAreInverse : Prop :=
  (∀ T : Tables, T.Admissible → ∀ k : Byte,
    (∀ x, recb T k (obfb T k x) = x) ∧ (∀ y, obfb T k (recb T k y) = y) ∧
    Function.Bijective (recb T k) ∧ Function.Bijective (obfb T k)) ∧
  ∀ (s : State) (k x : Byte),
    (∃ t u, exec (.obfb k x) s = .next t ∧ exec (.recb k t.dout) t = .next u ∧ u.dout = x) ∧
    ∃ t u, exec (.recb k x) s = .next t ∧ exec (.obfb k t.dout) t = .next u ∧ u.dout = x

/-- R78: the identities that hold for every admissible table, and the difference law. -/
def Obligations.TableFreeIdentities : Prop :=
  ∀ T : Tables, T.Admissible → ∀ k : Byte,
    recb T k 0x00 = T.mix (lutIndex k) ^^^ k ∧ recb T k 0xFF = not8 (T.mix (lutIndex k) ^^^ k) ∧
    obfb T k (T.mix (lutIndex k) ^^^ k) = 0x00 ∧ obfb T k (not8 (T.mix (lutIndex k) ^^^ k)) = 0xFF ∧
    (∀ c e, recb T k (c ^^^ e) = recb T k c ^^^ T.permRec (keyClass k) e) ∧
    ∀ (c : Byte) (b : Fin 8), ∃ b' : Fin 8, recb T k (c ^^^ BitVec.twoPow 8 b) = recb T k c ^^^ BitVec.twoPow 8 b'

/-! ## The checksum -/

/-- R86: after the accumulation slot `j` holds `MAGIC[j]` plus all bytes at positions `j` modulo 16, modulo 256; counting
positions from the block offset 16 gives the same slots, since 16 mod 16 = 0. -/
def Obligations.AccumulationIsSlotSums : Prop :=
  ∀ bs : List Byte,
    (∀ j : Fin 16, (accumulate Config.magic 0 bs)[j] = BitVec.ofNat 8 (Config.magic[j].toNat + slotSum bs j)) ∧
    accumulate Config.magic 16 bs = accumulate Config.magic 0 bs

/-- R87: slot 0 is kept; slot `j` is complemented exactly if it equals its left neighbour as the pass left it; on the slots
`10 10 EF` that gives `10 EF 10`. -/
def Obligations.DecollisionIsSequential : Prop :=
  ∀ a : Slots, (decollide a)[(0 : Fin 16)] = a[(0 : Fin 16)] ∧
    (∀ j : Fin 15, (decollide a)[j.succ] =
      if (decollide a)[j.castSucc] = a[j.succ] then not8 a[j.succ] else a[j.succ]) ∧
    (a[(0 : Fin 16)] = 0x10 → a[(1 : Fin 16)] = 0x10 → a[(2 : Fin 16)] = 0xEF →
      (decollide a)[(1 : Fin 16)] = 0xEF ∧ (decollide a)[(2 : Fin 16)] = 0x10)

/-- R91, R92: no two adjacent bytes of a digest are equal, of whatever span; every digest byte is its slot's sum or that
sum's complement, byte 0 the sum itself; bytes 15 and 0 may be equal. -/
def Obligations.DigestHasNoEqualNeighbours : Prop :=
  (∀ bs : List Byte, AdjacentDistinct (digest bs) ∧
    (digest bs)[(0 : Fin 16)] = BitVec.ofNat 8 (0x01 + slotSum bs 0) ∧
    ∀ j : Fin 16, (digest bs)[j] = BitVec.ofNat 8 (Config.magic[j].toNat + slotSum bs j) ∨
      (digest bs)[j] = not8 (BitVec.ofNat 8 (Config.magic[j].toNat + slotSum bs j))) ∧
  ∃ bs : List Byte, (digest bs)[(15 : Fin 16)] = (digest bs)[(0 : Fin 16)]

/-- R90: the empty span's digest is `MAGIC`, written out, and so is that of every span whose sixteen slot sums are 0 modulo
256, any number of 0x00 bytes among them. -/
def Obligations.EmptySpanDigest : Prop :=
  digest [] = #v[0x01, 0x23, 0x45, 0x67, 0x89, 0xAB, 0xCD, 0xEF, 0xFE, 0xDC, 0xBA, 0x98, 0x76, 0x54, 0x32, 0x10] ∧
    (∀ bs : List Byte, (∀ j < 16, slotSum bs j % 256 = 0) → digest bs = digest []) ∧
    ∀ n : Nat, digest (List.replicate n 0) = digest []

/-- R88: a digest depends on the span only through its slot sums: appended 0x00 bytes and an exchange of two bytes at
positions equal modulo 16 leave it unchanged. -/
def Obligations.DigestDependsOnSlotSums : Prop :=
  (∀ bs bs' : List Byte, (∀ j < 16, slotSum bs j % 256 = slotSum bs' j % 256) → digest bs = digest bs') ∧
    (∀ (bs : List Byte) (n : Nat), digest (bs ++ List.replicate n 0) = digest bs) ∧
    ∀ (bs : List Byte) (p q : Nat), p < bs.length → q < bs.length → p % 16 = q % 16 →
      digest ((bs.set p (bs.getD q 0)).set q (bs.getD p 0)) = digest bs

/-- R89: without a buffer DIGEST fails with MissingBuffer, whatever else holds; with a buffer that covers `LEN` it completes:
`DG` is the digest of the bytes `[0, LEN)` (which is `MAGIC` for `LEN = 0`), `RES` and `ERR` are 0, and memory, `K`, `CNT`,
`DOUT` and the operands are unchanged. `ACC` and `IDX` then hold no specified value. -/
def Obligations.DigestResult : Prop :=
  ∀ s : State,
    (s.bufv = false → exec .digest s = .next { s with err := 1, res := 0xFFFFFFFF, phase := .idle }) ∧
    (SpanReady s → ∃ t, exec .digest s = .next t ∧
      t.dg = digest ((List.range s.length).map s.mem.read) ∧ (s.length = 0 → t.dg = Config.magic) ∧
      t.res = 0 ∧ t.err = 0 ∧ t.phase = .idle ∧
      t.mem = s.mem ∧ t.k = s.k ∧ t.cnt = s.cnt ∧ t.dout = s.dout ∧ SameOperands s t)

/-! ## The block operations -/

/-- R96, R98: RECOVER fails with MissingBuffer, then UndersizedBlock; on a block it completes. Every payload byte becomes `recb` of it under the byte that stood before
it, the header and the bytes from `LEN` on are untouched, `RES` is the number of header bytes that differ from the digest of
the recovered payload, `ERR` is 0, and `DOUT`, `DG` and the operands are unchanged. `K`, `ACC`, `IDX` and `CNT` then hold no
specified value. -/
def Obligations.RecoverResult : Prop :=
  ∀ s : State,
    (s.bufv = false → exec .recover s = .next { s with err := 1, res := 0xFFFFFFFF, phase := .idle }) ∧
    (s.bufv = true → s.length < 16 → exec .recover s = .next { s with err := 2, res := 0xFFFFFFFE, phase := .idle }) ∧
    (BlockReady s → ∃ t, exec .recover s = .next t ∧
      (∀ o, 16 ≤ o → o < s.length → t.mem.read o = recb Config.tables (s.mem.read (o - 1)) (s.mem.read o)) ∧
      SameBytesOutside (fun o => 16 ≤ o ∧ o < s.length) s t ∧
      t.res.toNat = (List.finRange 16).countP (fun j : Fin 16 =>
        (digest ((List.range' 16 (s.length - 16)).map t.mem.read))[j] ≠ s.mem.read j) ∧
      t.err = 0 ∧ t.phase = .idle ∧ t.dout = s.dout ∧ t.dg = s.dg ∧ SameOperands s t)

/-- R97, R98: OBFUSCATE fails with MissingBuffer, then UndersizedBlock; on a block it completes. The header becomes the digest of the plaintext payload, every payload byte
becomes `obfb` of it under the byte that now stands before it, the bytes from `LEN` on are untouched, `RES` and `ERR` are 0,
and `CNT`, `DOUT`, `DG` and the operands are unchanged. `K`, `ACC` and `IDX` then hold no specified value. -/
def Obligations.ObfuscateResult : Prop :=
  ∀ s : State,
    (s.bufv = false → exec .obfuscate s = .next { s with err := 1, res := 0xFFFFFFFF, phase := .idle }) ∧
    (s.bufv = true → s.length < 16 → exec .obfuscate s = .next { s with err := 2, res := 0xFFFFFFFE, phase := .idle }) ∧
    (BlockReady s → ∃ t, exec .obfuscate s = .next t ∧
      (∀ j : Fin 16, t.mem.read j = (digest ((List.range' 16 (s.length - 16)).map s.mem.read))[j]) ∧
      (∀ o, 16 ≤ o → o < s.length → t.mem.read o = obfb Config.tables (t.mem.read (o - 1)) (s.mem.read o)) ∧
      SameBytesOutside (fun o => o < s.length) s t ∧
      t.res = 0 ∧ t.err = 0 ∧ t.phase = .idle ∧ t.cnt = s.cnt ∧ t.dout = s.dout ∧ t.dg = s.dg ∧ SameOperands s t)

/-- R97, R132: OBFUSCATE never reads the old header: two buffers with the same payload give the same block. -/
def Obligations.OldHeaderIsNeverRead : Prop :=
  ∀ s s' : State, BlockReady s → BlockReady s' → s'.len = s.len →
    (∀ o, 16 ≤ o → o < s.length → s'.mem.read o = s.mem.read o) →
    ∃ t t', exec .obfuscate s = .next t ∧ exec .obfuscate s' = .next t' ∧
      ∀ o, o < s.length → t'.mem.read o = t.mem.read o

/-- R100: OBFUSCATE and then RECOVER return mismatch count 0, recover exactly the payload, and leave its digest in the
header, for every length from 16 on. -/
def Obligations.ObfuscateThenRecover : Prop :=
  ∀ s : State, BlockReady s → ∃ t u, exec .obfuscate s = .next t ∧ exec .recover t = .next u ∧
    u.res = 0 ∧ u.err = 0 ∧
    (∀ o, 16 ≤ o → o < s.length → u.mem.read o = s.mem.read o) ∧
    ∀ j : Fin 16, u.mem.read j = (digest ((List.range' 16 (s.length - 16)).map s.mem.read))[j]

/-- R101: a byte altered at offset `o` can disturb the recovered payload only at `o` and `o + 1`; at `o` the change `e` of
the ciphertext byte becomes a change by the permutation of `e`; and in a block that recovers with count 0 an altered header
byte below 15 disturbs no payload byte and makes the count exactly 1. -/
def Obligations.ErrorsStayLocal : Prop :=
  ∀ (s : State) (o : Nat) (v : Byte), BlockReady s → o < s.length →
    ∃ t t', exec .recover s = .next t ∧ exec .recover { s with mem := s.mem.write o v } = .next t' ∧
      (∀ p, 16 ≤ p → p < s.length → p ≠ o → p ≠ o + 1 → t'.mem.read p = t.mem.read p) ∧
      (16 ≤ o → t'.mem.read o = t.mem.read o ^^^
        Config.tables.permRec (keyClass (s.mem.read (o - 1))) (v ^^^ s.mem.read o)) ∧
      (o < 15 → v ≠ s.mem.read o → t.res = 0 →
        t'.res = 1 ∧ ∀ p, 16 ≤ p → p < s.length → t'.mem.read p = t.mem.read p)

/-- R103: RECOVER and OBFUSCATE neither write nor read a byte at offset `LEN` or above. -/
def Obligations.NothingAtOrBeyondLength : Prop :=
  ∀ (s : State) (i : Instr) (o : Nat) (v : Byte), BlockReady s → i = .recover ∨ i = .obfuscate → s.length ≤ o →
    ∃ t t', exec i s = .next t ∧ exec i { s with mem := s.mem.write o v } = .next t' ∧
      (∀ p, s.length ≤ p → t.mem.read p = s.mem.read p) ∧
      t'.res = t.res ∧ t'.err = t.err ∧ ∀ p, p ≠ o → t'.mem.read p = t.mem.read p

/-- R104: with an empty payload OBFUSCATE writes `MAGIC` into the header and nothing else and returns 0; RECOVER writes
nothing and counts the header bytes that differ from `MAGIC`, which is 0 for the block OBFUSCATE produced. -/
def Obligations.EmptyPayload : Prop :=
  ∀ s : State, BlockReady s → s.length = 16 →
    ∃ t u v, exec .obfuscate s = .next t ∧ exec .recover s = .next u ∧ exec .recover t = .next v ∧
      (∀ j : Fin 16, t.mem.read j = Config.magic[j]) ∧ (∀ o, 16 ≤ o → t.mem.read o = s.mem.read o) ∧ t.res = 0 ∧
      u.mem = s.mem ∧ u.res.toNat = (List.finRange 16).countP (fun j : Fin 16 => s.mem.read j ≠ Config.magic[j]) ∧
      v.res = 0

/-- R105, C2: corruption may go unnoticed, for every admissible table. A block with payload `7E 5D` is obfuscated, one bit of
its last byte is flipped, and RECOVER returns 0 with the payload `7E 5C`. -/
def Obligations.CorruptionMayGoUnnoticed : Prop :=
  ∀ s : State, BlockReady s → s.length = 18 → s.mem.read 16 = 0x7E → s.mem.read 17 = 0x5D →
    ∃ t, exec .obfuscate s = .next t ∧ t.mem.read 0 = 0x7F ∧ t.mem.read 1 = 0x80 ∧ t.mem.read 2 = 0x45 ∧
      ∃ (b : Fin 8) (u : State),
        exec .recover { t with mem := t.mem.write 17 (t.mem.read 17 ^^^ BitVec.twoPow 8 b) } = .next u ∧
        u.res = 0 ∧ u.err = 0 ∧ u.mem.read 16 = 0x7E ∧ u.mem.read 17 = 0x5C

/-- R105: a change of an obfuscated byte at an offset that is a multiple of 16 is always noticed, since slot 0 is never
complemented and the disturbed neighbour feeds slot 1. -/
def Obligations.SlotZeroCorruptionIsNoticed : Prop :=
  ∀ (s : State) (o : Nat) (v : Byte), BlockReady s → 16 ≤ o → o < s.length → o % 16 = 0 →
    ∃ t, exec .obfuscate s = .next t ∧
      (v ≠ t.mem.read o → ∃ u, exec .recover { t with mem := t.mem.write o v } = .next u ∧ u.res ≠ 0)

/-- R138: RECOVER with a smaller `LEN` than OBFUSCATE used, but at least 16, recovers a prefix of the payload correctly. -/
def Obligations.ShorterRecoverGivesPrefix : Prop :=
  ∀ (s : State) (n : Word), BlockReady s → 16 ≤ n.toNat → n.toNat ≤ s.length →
    ∃ t u, exec .obfuscate s = .next t ∧ exec .recover { t with len := n } = .next u ∧
      ∀ o, 16 ≤ o → o < n.toNat → u.mem.read o = s.mem.read o

/-- R24: the outcome of an operation depends on the operands, the buffer bytes below `LEN` and the tables, and on nothing
else: not on the working registers, earlier results, the buffer reference or bytes beyond `LEN`. -/
def Obligations.OutcomeDependsOnOperandsAndBuffer : Prop :=
  ∀ (i : Instr) (s s' t : State), s'.bufv = s.bufv → s'.len = s.len → s'.length ≤ s'.extent →
    (∀ o, o < s.length → s'.mem.read o = s.mem.read o) → exec i s = .next t →
    ∃ t', exec i s' = .next t' ∧ t'.res = t.res ∧ t'.err = t.err ∧
      (∀ o, o < s.length → t'.mem.read o = t.mem.read o) ∧
      (∀ key data, i = .recb key data ∨ i = .obfb key data → t'.dout = t.dout) ∧
      (i = .digest → t.err = 0 → t'.dg = t.dg)

/-! ## Errors -/

/-- R111: with no buffer, RECOVER, OBFUSCATE and DIGEST fail with MissingBuffer whatever `BUF` and `LEN` are, writing `ERR`
and `RES` only; the host reads OBFUSCATE's status as -1. -/
def Obligations.MissingBufferFails : Prop :=
  ∀ s : State, s.bufv = false →
    exec .recover s = .next { s with err := 1, res := 0xFFFFFFFF, phase := .idle } ∧
    exec .obfuscate s = .next { s with err := 1, res := 0xFFFFFFFF, phase := .idle } ∧
    exec .digest s = .next { s with err := 1, res := 0xFFFFFFFF, phase := .idle } ∧
    ∀ t, exec .obfuscate s = .next t → hostReadStatus t = -1

/-- R113: with a buffer and `LEN < 16`, RECOVER and OBFUSCATE fail with UndersizedBlock, writing `ERR` and `RES` only; the
value is none of the other outcomes' and is -2 as a signed number; DIGEST has no such error. -/
def Obligations.UndersizedBlockFails : Prop :=
  ∀ s : State, s.bufv = true → s.length < 16 →
    exec .recover s = .next { s with err := 2, res := 0xFFFFFFFE, phase := .idle } ∧
    exec .obfuscate s = .next { s with err := 2, res := 0xFFFFFFFE, phase := .idle } ∧
    (0xFFFFFFFE : Word).toInt = -2 ∧ (∀ n : Nat, n ≤ 16 → BitVec.ofNat 32 n ≠ 0xFFFFFFFE) ∧
    (0xFFFFFFFE : Word) ≠ 0xFFFFFFFF ∧ (0xFFFFFFFE : Word) ≠ 0xFFFFFFFD ∧
    (s.length ≤ s.extent → ∃ t, exec .digest s = .next t ∧ t.err = 0)

/-- R117: a failed operation, an illegal word among them, leaves the buffer and every register except `RES`, `ERR` and `PHASE` exactly as they were. -/
def Obligations.FailedOperationChangesNothingElse : Prop :=
  ∀ (w : Word) (s t : State), issue w s = .next t → t.err ≠ 0 →
    t = { s with err := t.err, res := t.res, phase := .idle }

/-- R118: `RES` and `ERR` are not sticky: the next command overwrites both, whatever they held, and is not affected by
them. -/
def Obligations.ErrorsAreNotSticky : Prop :=
  ∀ (w : Word) (s : State) (r : Word) (e : BitVec 2), issue w { s with res := r, err := e } = issue w s

/-- R18, R19: the values `RES` takes, by operation and error code. -/
def Obligations.ReturnValueTable : Prop :=
  ∀ (w : Word) (s t : State), issue w s = .next t →
    (t.err = 0 ∧ t.res.toNat ≤ 16 ∧ (w ≠ 4 → t.res = 0)) ∨
    (t.err = 1 ∧ t.res = 0xFFFFFFFF ∧ s.bufv = false ∧ (w = 3 ∨ w = 4 ∨ w = 5)) ∨
    (t.err = 2 ∧ t.res = 0xFFFFFFFE ∧ s.bufv = true ∧ s.length < 16 ∧ (w = 4 ∨ w = 5)) ∨
    (t.err = 3 ∧ t.res = 0xFFFFFFFD ∧ commandLegal w = false)

/-- R20, R21: `DOUT` is written only by RECB and OBFB, with the transformed byte, and `DG` only by a DIGEST that completed,
with the digest; every other command, failed ones and illegal words among them, leaves them unchanged. -/
def Obligations.DoutAndDgHaveOneWriter : Prop :=
  ∀ (w : Word) (s t : State), issue w s = .next t →
    (∀ key data, decode w = .ok (.recb key data) → t.dout = recb Config.tables key data) ∧
    (∀ key data, decode w = .ok (.obfb key data) → t.dout = obfb Config.tables key data) ∧
    ((∀ key data, decode w ≠ .ok (.recb key data) ∧ decode w ≠ .ok (.obfb key data)) → t.dout = s.dout) ∧
    (decode w = .ok .digest → t.err = 0 → t.dg = digest ((List.range s.length).map s.mem.read)) ∧
    (decode w ≠ .ok .digest ∨ t.err ≠ 0 → t.dg = s.dg)

/-- R37, U3, with the order of assumption 12 (DEDUCED: the entry checks come first): an operation that would reach memory
over a buffer shorter than `LEN` is refused. -/
def Obligations.BrokenExtentDutyIsRefused : Prop :=
  ∀ s : State, s.bufv = true → s.extent < s.length →
    exec .digest s = .refused .hostDutyExtent ∧
    (16 ≤ s.length → exec .recover s = .refused .hostDutyExtent ∧ exec .obfuscate s = .refused .hostDutyExtent)

/-- R16, R17, R44: no operation writes `BUFV`, `BUF`, `LEN`, the extent or the host's moves. -/
def Obligations.OperationsKeepOperands : Prop :=
  ∀ (i : Instr) (s t : State), exec i s = .next t → SameOperands s t

/-! ## The step level -/

/-- R9, R99: the step level, run to its end, gives exactly the operation level's result, and the host gets no step in
between; an operation the operation level refuses is refused at the step level. -/
def Obligations.StepLevelGivesOperationLevel : Prop :=
  ∀ (s : State) (w : Word) (rest : List HostMove), s.phase = .idle → s.host = .writeCmd w :: rest →
    (∀ t, step s = .next t →
      ∃ n, 0 < n ∧ Host.Core.run core n ({ s with host := .writeCmdBySteps w :: rest } : State) = .next t ∧
        ∀ m, 0 < m → m < n → ∃ u : State,
          Host.Core.run core m ({ s with host := .writeCmdBySteps w :: rest } : State) = .next u ∧ u.phase ≠ .idle) ∧
    ∀ r, step s = .refused r →
      ∃ n, Host.Core.run core n ({ s with host := .writeCmdBySteps w :: rest } : State) = .refused r

/-- R99, R126: each line of the table, with the registers it writes and the phase it leads to; nothing else changes. That a
counted loop spends one step more on its end is the model's (assumption 21). -/
def Obligations.StepsFollowTheTable : Prop :=
  ∀ s : State,
    (∀ op, s.phase = .check op → s.bufv = false → step s = .next { s with err := 1, res := 0xFFFFFFFF, phase := .idle }) ∧
    (∀ d, s.phase = .check (.block d) → s.bufv = true → s.length < 16 →
      step s = .next { s with err := 2, res := 0xFFFFFFFE, phase := .idle }) ∧
    (s.phase = .check .digest → SpanReady s → step s = .next { s with phase := .sumInit .digest }) ∧
    (s.phase = .check (.block .recover) → BlockReady s → step s = .next { s with phase := .seed .recover }) ∧
    (s.phase = .check (.block .obfuscate) → BlockReady s →
      step s = .next { s with phase := .sumInit (.block .obfuscate) }) ∧
    (∀ d, s.phase = .seed d → 16 ≤ s.extent → step s = .next { s with k := s.mem.read 15, idx := 16, phase := .xform d }) ∧
    (s.phase = .xform .recover → s.idx.toNat < s.length → s.length ≤ s.extent →
      step s = .next
        { s with
          mem := s.mem.write s.idx.toNat (recb Config.tables s.k (s.mem.read s.idx.toNat))
          k := s.mem.read s.idx.toNat, idx := s.idx + 1 }) ∧
    (s.phase = .xform .obfuscate → s.idx.toNat < s.length → s.length ≤ s.extent →
      step s = .next
        { s with
          mem := s.mem.write s.idx.toNat (obfb Config.tables s.k (s.mem.read s.idx.toNat))
          k := obfb Config.tables s.k (s.mem.read s.idx.toNat), idx := s.idx + 1 }) ∧
    (s.phase = .xform .recover → s.length ≤ s.idx.toNat → step s = .next { s with phase := .sumInit (.block .recover) }) ∧
    (s.phase = .xform .obfuscate → s.length ≤ s.idx.toNat → step s = .next { s with phase := .done (.block .obfuscate) }) ∧
    (s.phase = .sumInit .digest → step s = .next { s with acc := Config.magic, idx := 0, phase := .sum .digest }) ∧
    (∀ d, s.phase = .sumInit (.block d) →
      step s = .next { s with acc := Config.magic, idx := 16, phase := .sum (.block d) }) ∧
    (∀ op, s.phase = .sum op → s.idx.toNat < s.length → s.length ≤ s.extent →
      ∃ a : Slots, step s = .next { s with acc := a, idx := s.idx + 1 } ∧
        ∀ j : Fin 16, a[j] = if j.val = s.idx.toNat % 16 then s.acc[j] + s.mem.read s.idx.toNat else s.acc[j]) ∧
    (∀ op, s.phase = .sum op → s.length ≤ s.idx.toNat → step s = .next { s with phase := .fix op 1 }) ∧
    (∀ op (j : Fin 15), s.phase = .fix op (j.val + 1) →
      ∃ a : Slots, step s = .next { s with acc := a, phase := .fix op (j.val + 2) } ∧
        a[j.succ] = (if s.acc[j.castSucc] = s.acc[j.succ] then not8 s.acc[j.succ] else s.acc[j.succ]) ∧
        ∀ i : Fin 16, i ≠ j.succ → a[i] = s.acc[i]) ∧
    (s.phase = .fix .digest 16 → step s = .next { s with phase := .done .digest }) ∧
    (s.phase = .fix (.block .recover) 16 → step s = .next { s with cnt := 0, phase := .cmp 0 }) ∧
    (s.phase = .fix (.block .obfuscate) 16 → step s = .next { s with phase := .hdr 0 }) ∧
    (∀ j : Fin 16, s.phase = .cmp j.val → 16 ≤ s.extent →
      step s = .next { s with cnt := if s.acc[j] = s.mem.read j then s.cnt else s.cnt + 1, phase := .cmp (j.val + 1) }) ∧
    (s.phase = .cmp 16 → step s = .next { s with phase := .done (.block .recover) }) ∧
    (∀ j : Fin 16, s.phase = .hdr j.val → 16 ≤ s.extent →
      step s = .next { s with mem := s.mem.write j s.acc[j], phase := .hdr (j.val + 1) }) ∧
    (s.phase = .hdr 16 → step s = .next { s with phase := .seed .obfuscate }) ∧
    ∀ op, s.phase = .done op → ∃ t, step s = .next t ∧ t.phase = .idle ∧ t.err = 0 ∧ t.mem = s.mem ∧ t.dout = s.dout ∧
      SameOperands s t ∧ (op = .block .recover → t.res = s.cnt.setWidth 32) ∧ (op ≠ .block .recover → t.res = 0) ∧
      (op = .digest → t.dg = s.acc) ∧ (op ≠ .digest → t.dg = s.dg)

/-- R139: at the step level a block operation takes `2 * (LEN - 16)` payload steps plus a number of steps that does not
depend on `LEN`. The number itself is the model's (assumption 21). -/
def Obligations.StepCountIsLinear : Prop :=
  ∀ d : Dir, ∃ c : Nat, ∀ (s : State) (rest : List HostMove), BlockReady s → s.phase = .idle →
    s.host = .writeCmdBySteps (blockWord d) :: rest →
    (∃ t : State, Host.Core.run core (2 * (s.length - 16) + c) s = .next t ∧ t.phase = .idle ∧ t.host = rest) ∧
    ∀ m, 0 < m → m < 2 * (s.length - 16) + c →
      ∃ u : State, Host.Core.run core m s = .next u ∧ u.phase ≠ .idle

/-- R126, R115: an operation in progress is over after finitely many steps, with the host's moves untouched; only its
`CHECK` can stop it, by refusing a broken host duty, which the premise excludes. -/
def Obligations.EveryOperationEnds : Prop :=
  ∀ s : State, MachineInv s → s.phase ≠ .idle → s.length ≤ s.extent →
    ∃ (n : Nat) (t : State), Host.Core.run core n s = .next t ∧ t.phase = .idle ∧ t.host = s.host

/-- R16, R17, R41, R42: while an operation is in progress no step takes a host move or writes an operand register, and the
result registers change only in the step that ends the operation. -/
def Obligations.StepsInProgressHideTheirResults : Prop :=
  ∀ s t : State, s.phase ≠ .idle → step s = .next t →
    SameOperands s t ∧ (t.phase ≠ .idle → SameResults s t)

/-- R35, R103: a step of an operation in progress changes no byte, but in `XFORM` bytes of the payload `[16, LEN)` and in
`HDR`, which only OBFUSCATE has, the header byte it has come to. -/
def Obligations.StepsInProgressStayInBlock : Prop :=
  ∀ s t : State, MachineInv s → s.phase ≠ .idle → step s = .next t →
    SameBytesOutside (fun o => o < s.length ∧ (s.phase = .xform .recover ∧ 16 ≤ o ∨
      s.phase = .xform .obfuscate ∧ 16 ≤ o ∨ ∃ j, s.phase = .hdr j ∧ o = j)) s t

/-! ## The host, reset and the whole machine -/

/-- R125: a host write of `BUFV`, of `LEN` or of a buffer byte between operations changes that register or byte and nothing
else, and the move is over. The clause about `BUF` is the model's choice (assumption 9, DESIGN CHOICE): a write of `BUF` also
replaces the buffer's bytes and `EXTENT` by those of the buffer it designates. -/
def Obligations.HostWritesOnlyTheirTarget : Prop :=
  ∀ (s : State) (rest : List HostMove), s.phase = .idle →
    (∀ b, s.host = .writeBufv b :: rest → step s = .next { s with host := rest, bufv := b }) ∧
    (∀ n, s.host = .writeLen n :: rest → step s = .next { s with host := rest, len := n }) ∧
    (∀ off v, s.host = .writeByte off v :: rest → off < s.extent →
      ∃ t, step s = .next t ∧ t = { s with host := rest, mem := t.mem } ∧ t.mem.read off = v ∧
        SameBytesOutside (fun o => o = off) s t) ∧
    ∀ ref bytes, s.host = .writeBuf ref bytes :: rest →
      ∃ t, step s = .next t ∧ t = { s with host := rest, buf := ref, extent := bytes.length, mem := t.mem } ∧
        ∀ o, o < bytes.length → t.mem.read o = bytes.getD o 0

/-- R23, assumption 11: a host write of a byte that does not exist stops the machine. -/
def Obligations.WriteBeyondExtentFaults : Prop :=
  ∀ (s : State) (off : Nat) (v : Byte) (rest : List HostMove), s.phase = .idle →
    s.host = .writeByte off v :: rest → s.extent ≤ off → step s = .fault .noSuchOffset

/-- R11, R12, R13, R15: no host read shows `K`, `ACC`, `IDX`, `CNT` or `PHASE`. -/
def Obligations.HostReadsNoWorkingRegister : Prop :=
  ∀ (r : HostReg) (s : State) (k : Byte) (acc : Slots) (idx : Word) (cnt : BitVec 5) (phase : Phase),
    hostRead r { s with k := k, acc := acc, idx := idx, cnt := cnt, phase := phase } = hostRead r s

/-- R25: the values R25 gives after reset. -/
def Obligations.ResetValues : Prop :=
  State.reset.phase = .idle ∧ State.reset.bufv = false ∧ State.reset.len = 0 ∧ State.reset.res = 0 ∧
    State.reset.err = 0 ∧ State.reset.dout = 0 ∧ ∀ j : Fin 16, State.reset.dg[j] = 0

/-- R130: the platform's reset between operations gives the values of R25; while an operation is in progress reset has no
move. That the bytes and `EXTENT` of the current buffer are kept, although R25 leaves `BUF` unspecified after reset and so open
which bytes it designates, is the model's choice (assumption 23, DESIGN CHOICE). -/
def Obligations.ResetKeepsTheBuffer : Prop :=
  ∀ (s : State) (rest : List HostMove), s.host = .reset :: rest →
    (s.phase = .idle → ∃ t, step s = .next t ∧ t.phase = .idle ∧ t.bufv = false ∧ t.len = 0 ∧ t.res = 0 ∧ t.err = 0 ∧
      t.dout = 0 ∧ (∀ j : Fin 16, t.dg[j] = 0) ∧ t.mem = s.mem ∧ t.extent = s.extent ∧ t.host = rest) ∧
    (s.phase ≠ .idle → ∀ t, step s = .next t → t.host = s.host)

/-- R25: an operation issued after reset, before the host supplies a buffer, fails with MissingBuffer and touches no
memory. -/
def Obligations.FirstOperationAfterReset : Prop :=
  ∀ w : Nat, w = 3 ∨ w = 4 ∨ w = 5 →
    ∃ t, step (State.reset.withFetchWord 32 w) = .next t ∧ t.err = 1 ∧ t.res = 0xFFFFFFFF ∧ t.mem = State.reset.mem

/-- R124: with no operation in progress and no host move the machine holds what it has. -/
def Obligations.IdleHolds : Prop :=
  ∀ s : State, s.phase = .idle → s.host = [] → step s = .next s

/-- The invariant holds after reset. -/
def Obligations.InvAtReset : Prop := MachineInv State.reset

/-- Every step keeps the invariant: the memory canonical and inside the buffer (R23), `RES` and `ERR` fitting together
(R18, R19), `DG` zero or without equal neighbours (R21, R91), the sequencer in a state it can be in (R99). -/
def Obligations.StepKeepsInv : Prop := ∀ s t : State, MachineInv s → step s = .next t → MachineInv t

/-- R110, R125, R37: while the host keeps its duties, `EXTENT >= LEN` for every span operation it issues with a buffer and
no write of a byte that does not exist, no step faults or refuses; an operation in progress keeps going by
itself once past `CHECK`. -/
def Obligations.DutifulStepsNeverStop : Prop :=
  ∀ s : State, MachineInv s → (s.phase = .idle → NextMoveDutiful s) →
    (∀ op, s.phase = .check op → s.bufv = true → s.length ≤ s.extent) → ∃ t, step s = .next t
end

