-- ==== Sys2Proof/Laws/Transform.lean ====
section
/-! SUPPORT. The byte transform: what both directions have in common, and consequences of the tables' contract. -/

namespace Sys2Proof.Machine

open Sys2Proof.Config (Tables IsBitPermutation)

/-- The next key is the byte in ciphertext form: the old byte when recovering, the new one when obfuscating (R98). -/
theorem transformByte_key (T : Tables) (d : Dir) (k x : Byte) :
    (transformByte T d k x).2 = match d with | .recover => x | .obfuscate => (transformByte T d k x).1 := by
  cases d <;> rfl

@[simp] theorem transformByte_recover (T : Tables) (k x : Byte) : transformByte T .recover k x = (recb T k x, x) := rfl

@[simp] theorem transformByte_obfuscate (T : Tables) (k x : Byte) :
    transformByte T .obfuscate k x = (obfb T k x, obfb T k x) := rfl

/-- A bit permutation carries XOR through. -/
theorem bitPermutation_xor {P : Byte → Byte} (h : IsBitPermutation P) (a b : Byte) : P (a ^^^ b) = P a ^^^ P b := by
  obtain ⟨src, -, hP⟩ := h
  apply BitVec.eq_of_getLsbD_eq
  intro i hi
  have := hP (a ^^^ b) ⟨i, hi⟩
  have := hP a ⟨i, hi⟩
  have := hP b ⟨i, hi⟩
  simp_all

/-- Two bit permutations that agree on the one-bit bytes have the same sources, bit by bit. -/
theorem bitPermutation_bit {P : Byte → Byte} {src : Fin 8 → Fin 8}
    (hP : ∀ (x : Byte) (j : Fin 8), (P x).getLsbD j = x.getLsbD (src j)) (i j : Fin 8) :
    (P (BitVec.twoPow 8 i)).getLsbD j = decide (src j = i) := by
  rw [hP, BitVec.getLsbD_twoPow]
  simp [Fin.ext_iff, eq_comm]

/-- A byte-to-byte function with a left inverse is inverse to it on both sides, bytes being finite (R70). -/
theorem inverse_both_sides {P Q : Byte → Byte} (h : ∀ x, Q (P x) = x) (x : Byte) : P (Q x) = x := by
  have hinj : Function.Injective P := fun a b hab => by rw [← h a, ← h b, hab]
  have e : BitVec 8 ≃ Fin (2 ^ 8) := ⟨BitVec.toFin, BitVec.ofFin, fun _ => rfl, fun _ => rfl⟩
  have : Finite Byte := Finite.of_equiv _ e.symm
  obtain ⟨y, rfl⟩ := Finite.injective_iff_surjective.mp hinj x
  rw [h]

/-- Byte arithmetic: XOR with the same value twice cancels. -/
theorem xor_cancel (a b : Byte) : a ^^^ b ^^^ b = a := by
  rw [BitVec.xor_assoc, BitVec.xor_self, BitVec.xor_zero]

/-- A byte differs from its complement (R8 (c)). -/
theorem not8_ne (a : Byte) : not8 a ≠ a := by
  intro h
  have := congrArg (BitVec.getLsbD · 0) h
  simp [not8] at this

end Sys2Proof.Machine
end

