-- ==== Sys2Proof/Laws/Checksum.lean ====
section
/-! SUPPORT. The checksum engine, one small lemma per phase. -/

namespace Sys2Proof.Machine

theorem slotOf_val (i : Nat) : (slotOf i).val = i % 16 := rfl

/-- Positions equal modulo 16 feed the same slot (R86). -/
theorem slotOf_add_16 (i : Nat) : slotOf (i + 16) = slotOf i := Fin.ext (by simp [slotOf_val])

/-- One addition: its slot gets the byte added, every other slot is kept (R86). -/
theorem addSlot_get (a : Slots) (i : Nat) (b : Byte) (j : Fin 16) :
    (addSlot a i b)[j] = if slotOf i = j then add8 a[j] b else a[j] := by
  unfold addSlot
  by_cases h : slotOf i = j
  · subst h
    simp
  · have h' : (slotOf i).val ≠ j.val := fun e => h (Fin.ext e)
    rw [if_neg h]
    exact Vector.getElem_set_ne _ _ h'

theorem addSlot_add_16 (a : Slots) (i : Nat) (b : Byte) : addSlot a (i + 16) b = addSlot a i b := by
  simp only [addSlot, slotOf_add_16]

theorem accumulate_append (a : Slots) (i : Nat) (bs bs' : List Byte) :
    accumulate a i (bs ++ bs') = accumulate (accumulate a i bs) (i + bs.length) bs' := by
  induction bs generalizing a i with
  | nil => rfl
  | cons b bs ih => simp only [List.cons_append, accumulate, ih, List.length_cons]; congr 1; omega

/-- Step `j` of the pass: slot `j` is complemented if it equals slot `j - 1`, every other slot is kept (R87). -/
theorem fixSlot_get (a : Slots) {j : Nat} (h1 : 1 ≤ j) (h2 : j < 16) (i : Nat) (hi : i < 16) :
    (fixSlot a j)[i] =
      if i = j then (if a[j - 1]'(by omega) = a[j] then not8 a[j] else a[j]) else a[i] := by
  unfold fixSlot
  rw [dif_pos ⟨h1, h2⟩]
  by_cases hij : i = j
  · subst hij
    split <;> simp_all
  · rw [if_neg hij]
    split
    · exact Vector.getElem_set_ne _ _ (Ne.symm hij)
    · rfl

/-- After step `j` slot `j` differs from its left neighbour (R91). -/
theorem fixSlot_ne (a : Slots) {j : Nat} (h1 : 1 ≤ j) (h2 : j < 16) :
    (fixSlot a j)[j - 1]'(by omega) ≠ (fixSlot a j)[j] := by
  rw [fixSlot_get a h1 h2 _ (by omega), fixSlot_get a h1 h2 j h2, if_neg (by omega), if_pos rfl]
  split
  · rename_i h
    rw [h]
    exact (not8_ne _).symm
  · assumption

/-- Steps `j .. j + n - 1` of the pass. -/
def decollideFrom (a : Slots) (j n : Nat) : Slots := (List.range' j n).foldl fixSlot a

theorem decollide_eq (a : Slots) : decollide a = decollideFrom a 1 15 := rfl

@[simp] theorem decollideFrom_zero (a : Slots) (j : Nat) : decollideFrom a j 0 = a := rfl

theorem decollideFrom_succ (a : Slots) (j n : Nat) : decollideFrom a j (n + 1) = decollideFrom (fixSlot a j) (j + 1) n := by
  simp [decollideFrom, List.range'_succ]

/-- The pass never comes back to a lower slot, nor past the steps it takes. -/
theorem decollideFrom_get_outside (a : Slots) {j n : Nat} (h1 : 1 ≤ j) (h2 : j + n ≤ 16) (i : Nat) (hi : i < 16)
    (ho : i < j ∨ j + n ≤ i) : (decollideFrom a j n)[i] = a[i] := by
  induction n generalizing a j with
  | zero => rfl
  | succ n ih =>
    have e : (decollideFrom a j (n + 1))[i] = (decollideFrom (fixSlot a j) (j + 1) n)[i] := by rw [decollideFrom_succ]
    rw [e, ih (fixSlot a j) (by omega) (by omega) (by omega), fixSlot_get a h1 (by omega) i hi, if_neg (by omega)]

end Sys2Proof.Machine
end

