-- ==== Sys2Proof/Laws/Memory.lean ====
section
/-! SUPPORT. The laws of memory: a read after a write, and that every memory operation keeps the canonical form. -/

namespace Sys2Proof.Machine

@[simp] theorem Memory.read_nil (a : Nat) : Memory.read [] a = Memory.blank := rfl

theorem Memory.read_cons (c : Host.Cell) (m : Memory) (a : Nat) :
    Memory.read (c :: m) a = if c.1 = a then c.2 else Memory.read m a := rfl

/-- An offset that no entry lists reads as the blank byte. -/
theorem Memory.read_of_not_listed {m : Memory} {a : Nat} (h : ∀ c ∈ m, c.1 ≠ a) : m.read a = Memory.blank := by
  induction m with
  | nil => rfl
  | cons c m ih =>
    rw [read_cons, if_neg (h c List.mem_cons_self)]
    exact ih fun d hd => h d (List.mem_cons_of_mem _ hd)

theorem Memory.read_erase (m : Memory) (a b : Nat) :
    (m.erase a).read b = if b = a then Memory.blank else m.read b := by
  by_cases hb : b = a
  · subst hb
    rw [if_pos rfl]
    exact read_of_not_listed fun c hc => by simpa using (List.mem_filter.mp hc).2
  · rw [if_neg hb]
    induction m with
    | nil => rfl
    | cons c m ih =>
      unfold erase at ih ⊢
      by_cases hc : c.1 = a
      · have hcb : ¬ c.1 = b := fun h => hb (h.symm.trans hc)
        rw [List.filter_cons_of_neg (by simpa using hc), ih, read_cons, if_neg hcb]
      · rw [List.filter_cons_of_pos (by simpa using hc), read_cons, read_cons, ih]

theorem Memory.read_insert (m : Memory) (a b : Nat) (v : Byte) (h : ∀ c ∈ m, c.1 ≠ a) :
    (Memory.insert m a v).read b = if b = a then v else m.read b := by
  induction m with
  | nil => simp [insert, read, eq_comm]
  | cons c m ih =>
    unfold insert
    split
    · simp [read_cons, eq_comm (a := a)]
    · have hca : c.1 ≠ a := h c List.mem_cons_self
      rw [read_cons, read_cons, ih fun d hd => h d (List.mem_cons_of_mem _ hd)]
      by_cases hb : c.1 = b
      · simp [hb, show ¬ b = a from fun h' => hca (hb.trans h')]
      · simp [hb]

/-- A read after a write: the value written at that offset, and the old byte everywhere else. -/
theorem Memory.read_write (m : Memory) (a b : Nat) (v : Byte) :
    (m.write a v).read b = if b = a then v else m.read b := by
  unfold write
  split
  · rename_i hv
    rw [read_erase, hv]
  · rw [read_insert _ _ _ _ fun c hc => by simpa using (List.mem_filter.mp hc).2, read_erase]
    split <;> rfl

@[simp] theorem Memory.read_write_same (m : Memory) (a : Nat) (v : Byte) : (m.write a v).read a = v := by
  simp [read_write]

theorem Memory.read_write_other (m : Memory) {a b : Nat} (v : Byte) (h : b ≠ a) : (m.write a v).read b = m.read b := by
  simp [read_write, h]

/-- What the memory made of a list of bytes reads as. -/
theorem Memory.read_ofBytes (bs : List Byte) (a b : Nat) :
    (Memory.ofBytes a bs).read b = if a ≤ b then bs.getD (b - a) Memory.blank else Memory.blank := by
  induction bs generalizing a with
  | nil => simp [ofBytes]
  | cons v bs ih =>
    unfold ofBytes
    rcases Nat.lt_trichotomy b a with h | h | h
    · have h1 : ¬ a = b := by omega
      split <;> simp [read_cons, ih, h1, show ¬ a ≤ b by omega, show ¬ a + 1 ≤ b by omega]
    · subst h
      split <;> simp_all [read_cons]
    · have h1 : ¬ a = b := by omega
      have h2 : b - a = (b - (a + 1)) + 1 := by omega
      split <;> simp [read_cons, ih, h1, h2, show a ≤ b by omega, show a + 1 ≤ b by omega]

/-! ## The canonical form -/

theorem Memory.wf_nil : Memory.wf [] := by decide

theorem Memory.wf_erase {m : Memory} (h : m.wf) (a : Nat) : (m.erase a).wf :=
  ⟨h.1.filter _, fun c hc => h.2 c (List.mem_filter.mp hc).1⟩

theorem Memory.mem_insert {m : Memory} {a : Nat} {v : Byte} {c : Host.Cell} (h : c ∈ Memory.insert m a v) :
    c = (a, v) ∨ c ∈ m := by
  induction m with
  | nil => simpa [insert] using h
  | cons d m ih =>
    unfold insert at h
    split at h
    · simpa using h
    · rcases List.mem_cons.mp h with rfl | h'
      · exact Or.inr List.mem_cons_self
      · exact (ih h').imp_right (List.mem_cons_of_mem _)

theorem Memory.wf_insert {m : Memory} (h : m.wf) {a : Nat} {v : Byte} (hv : v ≠ Memory.blank)
    (ha : ∀ c ∈ m, c.1 ≠ a) : (Memory.insert m a v).wf := by
  refine ⟨?_, fun c hc => (mem_insert hc).elim (fun e => by simpa [e] using hv) (h.2 c)⟩
  induction m with
  | nil => simp [insert]
  | cons d m ih =>
    obtain ⟨hp, hn⟩ := h
    have hd := List.pairwise_cons.mp hp
    unfold insert
    split
    · rename_i hlt
      refine List.pairwise_cons.mpr ⟨fun c hc => ?_, hp⟩
      rcases List.mem_cons.mp hc with rfl | hc
      · exact hlt
      · exact Nat.lt_trans hlt (hd.1 c hc)
    · rename_i hge
      have hda : d.1 ≠ a := ha d List.mem_cons_self
      refine List.pairwise_cons.mpr ⟨fun c hc => ?_, ih ⟨hd.2, fun c hc => hn c (List.mem_cons_of_mem _ hc)⟩
        fun c hc => ha c (List.mem_cons_of_mem _ hc)⟩
      rcases mem_insert hc with rfl | hc
      · exact Nat.lt_of_le_of_ne (Nat.le_of_not_lt hge) hda
      · exact hd.1 c hc

/-- A write keeps the canonical form. -/
theorem Memory.wf_write {m : Memory} (h : m.wf) (a : Nat) (v : Byte) : (m.write a v).wf := by
  unfold write
  split
  · exact wf_erase h a
  · exact wf_insert (wf_erase h a) ‹_› fun c hc => by simpa using (List.mem_filter.mp hc).2

/-- What a write lists was listed before or is the written offset. -/
theorem Memory.mem_write {m : Memory} {a : Nat} {v : Byte} {c : Host.Cell} (h : c ∈ m.write a v) :
    c.1 = a ∨ c ∈ m := by
  unfold write at h
  split at h
  · exact Or.inr (List.mem_filter.mp h).1
  · exact (mem_insert h).imp (fun e => by simp [e]) fun hc => (List.mem_filter.mp hc).1

/-- What the memory made of bytes lists lies within them. -/
theorem Memory.mem_ofBytes {bs : List Byte} {a : Nat} {c : Host.Cell} (h : c ∈ Memory.ofBytes a bs) :
    a ≤ c.1 ∧ c.1 < a + bs.length ∧ c.2 ≠ Memory.blank := by
  induction bs generalizing a with
  | nil => simp [ofBytes] at h
  | cons v bs ih =>
    unfold ofBytes at h
    split at h
    · have := ih h
      simp only [List.length_cons]
      exact ⟨by omega, by omega, this.2.2⟩
    · rcases List.mem_cons.mp h with rfl | h
      · simp_all
      · have := ih h
        simp only [List.length_cons]
        exact ⟨by omega, by omega, this.2.2⟩

/-- The memory made of a list of bytes is in canonical form. -/
theorem Memory.wf_ofBytes (a : Nat) (bs : List Byte) : (Memory.ofBytes a bs).wf := by
  refine ⟨?_, fun c hc => (mem_ofBytes hc).2.2⟩
  induction bs generalizing a with
  | nil => simp [ofBytes]
  | cons v bs ih =>
    unfold ofBytes
    split
    · exact ih _
    · exact List.pairwise_cons.mpr ⟨fun c hc => Nat.lt_of_succ_le (mem_ofBytes hc).1, ih _⟩

/-- Equal reads of canonical memories mean equal memories. -/
theorem Memory.ext_of_wf {m m' : Memory} (h : m.wf) (h' : m'.wf) (hr : ∀ a, m.read a = m'.read a) : m = m' := by
  have listed : ∀ {m : Memory}, m.wf → ∀ {c : Host.Cell}, c ∈ m ↔ m.read c.1 = c.2 ∧ c.2 ≠ Memory.blank := by
    intro m hm c
    induction m with
    | nil => simp [eq_comm]
    | cons d m ih =>
      have hp := List.pairwise_cons.mp hm.1
      have hm' : Memory.wf m := ⟨hp.2, fun c hc => hm.2 c (List.mem_cons_of_mem _ hc)⟩
      rw [List.mem_cons, ih hm', read_cons]
      by_cases hdc : d.1 = c.1
      · have hnone : Memory.read m c.1 = Memory.blank := read_of_not_listed fun e he => by
          have := hp.1 e he
          omega
        rw [if_pos hdc, hnone]
        constructor
        · rintro (rfl | ⟨h1, h2⟩)
          · exact ⟨rfl, hm.2 _ List.mem_cons_self⟩
          · exact absurd h1.symm h2
        · rintro ⟨h1, -⟩
          exact Or.inl (Prod.ext hdc.symm h1.symm)
      · rw [if_neg hdc]
        constructor
        · rintro (rfl | h1)
          · exact absurd rfl hdc
          · exact h1
        · exact Or.inr
  have nodup : ∀ {m : Memory}, m.wf → m.Nodup := fun hm =>
    hm.1.imp fun hlt heq => by simp [heq] at hlt
  refine List.Perm.eq_of_pairwise (le := fun x y : Host.Cell => x.1 < y.1) ?_ h.1 h'.1 ?_
  · intro a b _ _ h1 h2
    omega
  · refine (List.perm_ext_iff_of_nodup (nodup h) (nodup h')).mpr fun c => ?_
    rw [listed h, listed h', hr]

end Sys2Proof.Machine
end

