-- ==== Sys2Proof/Laws/State.lean ====
section
/-! SUPPORT. The fields of a state after each named update: one lemma per field and update, each true by definition, so that
no proof unfolds a record update. -/

namespace Sys2Proof.Machine

open Sys2Proof

/-! ### `State.fail` -/

@[simp] theorem State.fail_k (s : State) (f : Failure) : (s.fail f).k = s.k := rfl
@[simp] theorem State.fail_acc (s : State) (f : Failure) : (s.fail f).acc = s.acc := rfl
@[simp] theorem State.fail_idx (s : State) (f : Failure) : (s.fail f).idx = s.idx := rfl
@[simp] theorem State.fail_cnt (s : State) (f : Failure) : (s.fail f).cnt = s.cnt := rfl
@[simp] theorem State.fail_phase (s : State) (f : Failure) : (s.fail f).phase = .idle := rfl
@[simp] theorem State.fail_bufv (s : State) (f : Failure) : (s.fail f).bufv = s.bufv := rfl
@[simp] theorem State.fail_buf (s : State) (f : Failure) : (s.fail f).buf = s.buf := rfl
@[simp] theorem State.fail_len (s : State) (f : Failure) : (s.fail f).len = s.len := rfl
@[simp] theorem State.fail_res (s : State) (f : Failure) : (s.fail f).res = f.value := rfl
@[simp] theorem State.fail_err (s : State) (f : Failure) : (s.fail f).err = f.code := rfl
@[simp] theorem State.fail_dout (s : State) (f : Failure) : (s.fail f).dout = s.dout := rfl
@[simp] theorem State.fail_dg (s : State) (f : Failure) : (s.fail f).dg = s.dg := rfl
@[simp] theorem State.fail_mem (s : State) (f : Failure) : (s.fail f).mem = s.mem := rfl
@[simp] theorem State.fail_extent (s : State) (f : Failure) : (s.fail f).extent = s.extent := rfl
@[simp] theorem State.fail_draw (s : State) (f : Failure) : (s.fail f).draw = s.draw := rfl
@[simp] theorem State.fail_host (s : State) (f : Failure) : (s.fail f).host = s.host := rfl

/-! ### `State.endByte` -/

@[simp] theorem State.endByte_k (s : State) (v : Byte) : (s.endByte v).k = s.k := rfl
@[simp] theorem State.endByte_acc (s : State) (v : Byte) : (s.endByte v).acc = s.acc := rfl
@[simp] theorem State.endByte_idx (s : State) (v : Byte) : (s.endByte v).idx = s.idx := rfl
@[simp] theorem State.endByte_cnt (s : State) (v : Byte) : (s.endByte v).cnt = s.cnt := rfl
@[simp] theorem State.endByte_phase (s : State) (v : Byte) : (s.endByte v).phase = s.phase := rfl
@[simp] theorem State.endByte_bufv (s : State) (v : Byte) : (s.endByte v).bufv = s.bufv := rfl
@[simp] theorem State.endByte_buf (s : State) (v : Byte) : (s.endByte v).buf = s.buf := rfl
@[simp] theorem State.endByte_len (s : State) (v : Byte) : (s.endByte v).len = s.len := rfl
@[simp] theorem State.endByte_res (s : State) (v : Byte) : (s.endByte v).res = 0 := rfl
@[simp] theorem State.endByte_err (s : State) (v : Byte) : (s.endByte v).err = 0 := rfl
@[simp] theorem State.endByte_dout (s : State) (v : Byte) : (s.endByte v).dout = v := rfl
@[simp] theorem State.endByte_dg (s : State) (v : Byte) : (s.endByte v).dg = s.dg := rfl
@[simp] theorem State.endByte_mem (s : State) (v : Byte) : (s.endByte v).mem = s.mem := rfl
@[simp] theorem State.endByte_extent (s : State) (v : Byte) : (s.endByte v).extent = s.extent := rfl
@[simp] theorem State.endByte_draw (s : State) (v : Byte) : (s.endByte v).draw = s.draw := rfl
@[simp] theorem State.endByte_host (s : State) (v : Byte) : (s.endByte v).host = s.host := rfl

/-! ### `State.endDigest` -/

@[simp] theorem State.endDigest_k (s : State) (d : Slots) : (s.endDigest d).k = s.k := rfl
@[simp] theorem State.endDigest_acc (s : State) (d : Slots) : (s.endDigest d).acc = Config.freeSlots s.draw := rfl
@[simp] theorem State.endDigest_idx (s : State) (d : Slots) : (s.endDigest d).idx = Config.freeWord s.draw := rfl
@[simp] theorem State.endDigest_cnt (s : State) (d : Slots) : (s.endDigest d).cnt = s.cnt := rfl
@[simp] theorem State.endDigest_phase (s : State) (d : Slots) : (s.endDigest d).phase = .idle := rfl
@[simp] theorem State.endDigest_bufv (s : State) (d : Slots) : (s.endDigest d).bufv = s.bufv := rfl
@[simp] theorem State.endDigest_buf (s : State) (d : Slots) : (s.endDigest d).buf = s.buf := rfl
@[simp] theorem State.endDigest_len (s : State) (d : Slots) : (s.endDigest d).len = s.len := rfl
@[simp] theorem State.endDigest_res (s : State) (d : Slots) : (s.endDigest d).res = 0 := rfl
@[simp] theorem State.endDigest_err (s : State) (d : Slots) : (s.endDigest d).err = 0 := rfl
@[simp] theorem State.endDigest_dout (s : State) (d : Slots) : (s.endDigest d).dout = s.dout := rfl
@[simp] theorem State.endDigest_dg (s : State) (d : Slots) : (s.endDigest d).dg = d := rfl
@[simp] theorem State.endDigest_mem (s : State) (d : Slots) : (s.endDigest d).mem = s.mem := rfl
@[simp] theorem State.endDigest_extent (s : State) (d : Slots) : (s.endDigest d).extent = s.extent := rfl
@[simp] theorem State.endDigest_draw (s : State) (d : Slots) : (s.endDigest d).draw = s.draw + 1 := rfl
@[simp] theorem State.endDigest_host (s : State) (d : Slots) : (s.endDigest d).host = s.host := rfl

/-! ### `State.endRecover` -/

@[simp] theorem State.endRecover_k (s : State) (c : BitVec 5) : (s.endRecover c).k = Config.freeByte s.draw := rfl
@[simp] theorem State.endRecover_acc (s : State) (c : BitVec 5) : (s.endRecover c).acc = Config.freeSlots s.draw := rfl
@[simp] theorem State.endRecover_idx (s : State) (c : BitVec 5) : (s.endRecover c).idx = Config.freeWord s.draw := rfl
@[simp] theorem State.endRecover_cnt (s : State) (c : BitVec 5) : (s.endRecover c).cnt = Config.freeCount s.draw := rfl
@[simp] theorem State.endRecover_phase (s : State) (c : BitVec 5) : (s.endRecover c).phase = .idle := rfl
@[simp] theorem State.endRecover_bufv (s : State) (c : BitVec 5) : (s.endRecover c).bufv = s.bufv := rfl
@[simp] theorem State.endRecover_buf (s : State) (c : BitVec 5) : (s.endRecover c).buf = s.buf := rfl
@[simp] theorem State.endRecover_len (s : State) (c : BitVec 5) : (s.endRecover c).len = s.len := rfl
@[simp] theorem State.endRecover_res (s : State) (c : BitVec 5) : (s.endRecover c).res = c.setWidth 32 := rfl
@[simp] theorem State.endRecover_err (s : State) (c : BitVec 5) : (s.endRecover c).err = 0 := rfl
@[simp] theorem State.endRecover_dout (s : State) (c : BitVec 5) : (s.endRecover c).dout = s.dout := rfl
@[simp] theorem State.endRecover_dg (s : State) (c : BitVec 5) : (s.endRecover c).dg = s.dg := rfl
@[simp] theorem State.endRecover_mem (s : State) (c : BitVec 5) : (s.endRecover c).mem = s.mem := rfl
@[simp] theorem State.endRecover_extent (s : State) (c : BitVec 5) : (s.endRecover c).extent = s.extent := rfl
@[simp] theorem State.endRecover_draw (s : State) (c : BitVec 5) : (s.endRecover c).draw = s.draw + 1 := rfl
@[simp] theorem State.endRecover_host (s : State) (c : BitVec 5) : (s.endRecover c).host = s.host := rfl

/-! ### `State.endObfuscate` -/

@[simp] theorem State.endObfuscate_k (s : State) : (s.endObfuscate).k = Config.freeByte s.draw := rfl
@[simp] theorem State.endObfuscate_acc (s : State) : (s.endObfuscate).acc = Config.freeSlots s.draw := rfl
@[simp] theorem State.endObfuscate_idx (s : State) : (s.endObfuscate).idx = Config.freeWord s.draw := rfl
@[simp] theorem State.endObfuscate_cnt (s : State) : (s.endObfuscate).cnt = s.cnt := rfl
@[simp] theorem State.endObfuscate_phase (s : State) : (s.endObfuscate).phase = .idle := rfl
@[simp] theorem State.endObfuscate_bufv (s : State) : (s.endObfuscate).bufv = s.bufv := rfl
@[simp] theorem State.endObfuscate_buf (s : State) : (s.endObfuscate).buf = s.buf := rfl
@[simp] theorem State.endObfuscate_len (s : State) : (s.endObfuscate).len = s.len := rfl
@[simp] theorem State.endObfuscate_res (s : State) : (s.endObfuscate).res = 0 := rfl
@[simp] theorem State.endObfuscate_err (s : State) : (s.endObfuscate).err = 0 := rfl
@[simp] theorem State.endObfuscate_dout (s : State) : (s.endObfuscate).dout = s.dout := rfl
@[simp] theorem State.endObfuscate_dg (s : State) : (s.endObfuscate).dg = s.dg := rfl
@[simp] theorem State.endObfuscate_mem (s : State) : (s.endObfuscate).mem = s.mem := rfl
@[simp] theorem State.endObfuscate_extent (s : State) : (s.endObfuscate).extent = s.extent := rfl
@[simp] theorem State.endObfuscate_draw (s : State) : (s.endObfuscate).draw = s.draw + 1 := rfl
@[simp] theorem State.endObfuscate_host (s : State) : (s.endObfuscate).host = s.host := rfl

/-! ### Lengths and checks, which only the operand registers decide -/

theorem State.length_eq (s : State) : s.length = s.len.toNat := rfl

@[simp] theorem State.fail_length (s : State) (f : Failure) : (s.fail f).length = s.length := rfl
@[simp] theorem State.endDigest_length (s : State) (d : Slots) : (s.endDigest d).length = s.length := rfl
@[simp] theorem State.endRecover_length (s : State) (c : BitVec 5) : (s.endRecover c).length = s.length := rfl
@[simp] theorem State.endObfuscate_length (s : State) : s.endObfuscate.length = s.length := rfl

/-- A length is a 32-bit number. -/
theorem State.length_lt (s : State) : s.length < 2 ^ 32 := s.len.isLt

@[simp] theorem State.extentCovers_iff (s : State) : s.extentCovers = true ↔ s.length ≤ s.extent := by
  simp [State.extentCovers]

end Sys2Proof.Machine
end

