-- ==== Sys2Proof/Laws/Ops.lean ====
section
/-! SUPPORT. What the shared operations can do: the entry checks, the frame of the span operations, a checked access. -/

namespace Sys2Proof.Machine

/-- The entry checks, all outcomes (R95, R116). -/
theorem entryFailure_cases (op : SpanOp) (s : State) :
    (s.bufv = false ∧ entryFailure op s = some (.missingBuffer op)) ∨
    (s.bufv = true ∧ s.length < op.first ∧ entryFailure op s = some .undersizedBlock) ∨
    (s.bufv = true ∧ op.first ≤ s.length ∧ entryFailure op s = none) := by
  unfold entryFailure
  cases s.bufv
  · simp
  · cases op with
    | digest => simp [SpanOp.first]
    | block d =>
      by_cases h : s.length < 16
      · simp [SpanOp.first, Config.headerLen, Config.minLen, h]
      · simp [SpanOp.first, Config.headerLen, Config.minLen, h]
        omega

theorem entryFailure_none_iff (op : SpanOp) (s : State) :
    entryFailure op s = none ↔ s.bufv = true ∧ op.first ≤ s.length := by
  rcases entryFailure_cases op s with ⟨h1, h2⟩ | ⟨h1, h2, h3⟩ | ⟨h1, h2, h3⟩
  · simp [h1, h2]
  · simp [h1, h3, h2]
  · simp [h1, h2, h3]

/-- Everything a span operation can do: fail with an entry check, be refused, or complete with its body. -/
theorem spanOperation_cases (op : SpanOp) (s body : State) :
    (∃ f, entryFailure op s = some f ∧ spanOperation op s body = .next (s.fail f)) ∨
    (s.bufv = true ∧ op.first ≤ s.length ∧ s.extent < s.length ∧
      spanOperation op s body = .refused .hostDutyExtent) ∨
    (s.bufv = true ∧ op.first ≤ s.length ∧ s.length ≤ s.extent ∧ spanOperation op s body = .next body) := by
  unfold spanOperation
  cases hf : entryFailure op s with
  | some f => exact Or.inl ⟨f, rfl, rfl⟩
  | none =>
    obtain ⟨h1, h2⟩ := (entryFailure_none_iff op s).mp hf
    by_cases h : s.length ≤ s.extent
    · exact Or.inr (Or.inr ⟨h1, h2, h, if_pos ((State.extentCovers_iff s).mpr h)⟩)
    · exact Or.inr (Or.inl ⟨h1, h2, Nat.lt_of_not_le h, if_neg (mt (State.extentCovers_iff s).mp h)⟩)

/-- Without a buffer a span operation fails with MissingBuffer (R111). -/
theorem spanOperation_missing {op : SpanOp} {s : State} (body : State) (h : s.bufv = false) :
    spanOperation op s body = .next (s.fail (.missingBuffer op)) := by
  have e : entryFailure op s = some (.missingBuffer op) := by simp [entryFailure, h]
  simp only [spanOperation, e]

/-- With a buffer but `LEN < 16` a block operation fails with UndersizedBlock (R113). -/
theorem spanOperation_undersized {d : Dir} {s : State} (body : State) (h : s.bufv = true) (hl : s.length < 16) :
    spanOperation (.block d) s body = .next (s.fail .undersizedBlock) := by
  have e : entryFailure (.block d) s = some .undersizedBlock := by simp [entryFailure, h, Config.minLen, hl]
  simp only [spanOperation, e]

/-- A span operation whose checks pass and whose buffer covers `LEN` completes with its body. -/
theorem spanOperation_completes {op : SpanOp} {s : State} (body : State) (hv : s.bufv = true)
    (hl : op.first ≤ s.length) (he : s.length ≤ s.extent) : spanOperation op s body = .next body := by
  rcases spanOperation_cases op s body with ⟨f, hf, -⟩ | ⟨-, -, h, -⟩ | ⟨-, -, -, h⟩
  · rw [(entryFailure_none_iff op s).mpr ⟨hv, hl⟩] at hf
    exact absurd hf (by simp)
  · omega
  · exact h

/-- A checked read, both outcomes. -/
theorem withByte_cases (s : State) (off : Nat) (k : Byte → State) :
    (off < s.extent ∧ withByte s off k = .next (k (s.mem.read off))) ∨
    (s.extent ≤ off ∧ withByte s off k = .fault .noSuchOffset) := by
  unfold withByte
  split
  · exact Or.inl ⟨‹_›, rfl⟩
  · exact Or.inr ⟨Nat.le_of_not_lt ‹_›, rfl⟩

/-- The value and code of each failure (R110). -/
theorem Failure.value_code (f : Failure) :
    (f.code = 1 ∧ f.value = 0xFFFFFFFF) ∨ (f.code = 2 ∧ f.value = 0xFFFFFFFE) ∨
      (f.code = 3 ∧ f.value = 0xFFFFFFFD) := by
  cases f with
  | missingBuffer op =>
    refine Or.inl ⟨rfl, ?_⟩
    cases op with
    | digest => rfl
    | block d => cases d <;> rfl
  | undersizedBlock => exact Or.inr (Or.inl ⟨rfl, rfl⟩)
  | illegalCommand => exact Or.inr (Or.inr ⟨rfl, rfl⟩)

end Sys2Proof.Machine
end

