-- ==== Sys2Proof/Laws/Block.lean ====
section
/-! SUPPORT. The loops of the block operations: what they leave at each offset. -/

namespace Sys2Proof.Machine

open Sys2Proof.Config (Tables)

theorem xformLoop_zero (T : Tables) (d : Dir) (i : Nat) (k : Byte) (m : Memory) : xformLoop T d 0 i k m = m := rfl

theorem xformLoop_succ (T : Tables) (d : Dir) (n i : Nat) (k : Byte) (m : Memory) :
    xformLoop T d (n + 1) i k m =
      xformLoop T d n (i + 1) (transformByte T d k (m.read i)).2 (m.write i (transformByte T d k (m.read i)).1) := rfl

/-- The loop touches only the offsets it runs over (R103). -/
theorem xformLoop_outside (T : Tables) (d : Dir) (n i : Nat) (k : Byte) (m : Memory) (o : Nat) (h : o < i ∨ i + n ≤ o) :
    (xformLoop T d n i k m).read o = m.read o := by
  induction n generalizing i k m with
  | zero => rfl
  | succ n ih => rw [xformLoop_succ, ih _ _ _ (by omega), Memory.read_write_other _ _ (by omega)]

/-- The loop depends on its memory only through the bytes it runs over. -/
theorem xformLoop_congr (T : Tables) (d : Dir) (n i : Nat) (k : Byte) (m m' : Memory)
    (h : ∀ o, i ≤ o → o < i + n → m'.read o = m.read o) (o : Nat) (h1 : i ≤ o) (h2 : o < i + n) :
    (xformLoop T d n i k m').read o = (xformLoop T d n i k m).read o := by
  induction n generalizing i k m m' with
  | zero => omega
  | succ n ih =>
    rw [xformLoop_succ, xformLoop_succ, h i (by omega) (by omega)]
    by_cases hoi : o = i
    · subst hoi
      rw [xformLoop_outside _ _ _ _ _ _ _ (by omega), xformLoop_outside _ _ _ _ _ _ _ (by omega),
        Memory.read_write_same, Memory.read_write_same]
    · refine ih _ _ _ _ (fun p hp1 hp2 => ?_) (by omega) (by omega)
      rw [Memory.read_write_other _ _ (by omega), Memory.read_write_other _ _ (by omega), h p (by omega) (by omega)]

/-- The loop keeps the canonical form. -/
theorem xformLoop_wf (T : Tables) (d : Dir) (n i : Nat) (k : Byte) {m : Memory} (h : m.wf) : (xformLoop T d n i k m).wf := by
  induction n generalizing i k m with
  | zero => exact h
  | succ n ih => exact ih _ _ (Memory.wf_write h _ _)

/-- The loop lists nothing but what was listed and the offsets it runs over. -/
theorem mem_xformLoop {T : Tables} {d : Dir} {n i : Nat} {k : Byte} {m : Memory} {c : Host.Cell}
    (h : c ∈ xformLoop T d n i k m) : (i ≤ c.1 ∧ c.1 < i + n) ∨ c ∈ m := by
  induction n generalizing i k m with
  | zero => exact Or.inr h
  | succ n ih =>
    rcases ih h with h' | h'
    · exact Or.inl (by omega)
    · rcases Memory.mem_write h' with h'' | h''
      · exact Or.inl (by omega)
      · exact Or.inr h''

/-- Header bytes `j .. 15` of a digest written over a memory: the part of `writeHeader` from `j` on. -/
def writeHeaderFrom (d : Slots) (js : List (Fin 16)) (m : Memory) : Memory :=
  js.foldl (fun m (j : Fin 16) => m.write j d[j]) m

theorem writeHeader_eq (d : Slots) (m : Memory) : writeHeader d m = writeHeaderFrom d (List.finRange 16) m := rfl

theorem writeHeaderFrom_read (d : Slots) (js : List (Fin 16)) (m : Memory) (o : Nat) :
    (writeHeaderFrom d js m).read o = if h : ∃ j ∈ js, j.val = o then d[o]'(by obtain ⟨j, -, rfl⟩ := h; exact j.isLt) else m.read o := by
  induction js generalizing m with
  | nil => simp [writeHeaderFrom]
  | cons j js ih =>
    have e : writeHeaderFrom d (j :: js) m = writeHeaderFrom d js (m.write j d[j]) := rfl
    rw [e, ih]
    by_cases h : ∃ i ∈ js, i.val = o
    · rw [dif_pos h, dif_pos (by obtain ⟨i, hi, e⟩ := h; exact ⟨i, List.mem_cons_of_mem _ hi, e⟩)]
    · rw [dif_neg h]
      by_cases hj : j.val = o
      · subst hj
        rw [dif_pos ⟨j, List.mem_cons_self, rfl⟩, Memory.read_write_same]
        rfl
      · rw [dif_neg (by rintro ⟨i, hi, hio⟩; rcases List.mem_cons.mp hi with rfl | hi; exacts [hj hio, h ⟨i, hi, hio⟩]),
          Memory.read_write_other _ _ (Ne.symm hj)]

/-- What the header write leaves: the digest in bytes 0 to 15, every other byte (R97). -/
theorem writeHeader_read (d : Slots) (m : Memory) (o : Nat) :
    (writeHeader d m).read o = if h : o < 16 then d[o] else m.read o := by
  rw [writeHeader_eq, writeHeaderFrom_read]
  by_cases h : o < 16
  · rw [dif_pos ⟨⟨o, h⟩, List.mem_finRange _, rfl⟩, dif_pos h]
  · rw [dif_neg (by rintro ⟨j, -, rfl⟩; exact h j.isLt), dif_neg h]

theorem writeHeaderFrom_wf (d : Slots) (js : List (Fin 16)) {m : Memory} (h : m.wf) : (writeHeaderFrom d js m).wf := by
  induction js generalizing m with
  | nil => exact h
  | cons j js ih => exact ih (Memory.wf_write h _ _)

theorem mem_writeHeaderFrom {d : Slots} {js : List (Fin 16)} {m : Memory} {c : Host.Cell}
    (h : c ∈ writeHeaderFrom d js m) : c.1 < 16 ∨ c ∈ m := by
  induction js generalizing m with
  | nil => exact Or.inr h
  | cons j js ih =>
    rcases ih h with h' | h'
    · exact Or.inl h'
    · rcases Memory.mem_write h' with h'' | h''
      · exact Or.inl (h'' ▸ j.isLt)
      · exact Or.inr h''

/-! ## The two directions, byte by byte (R98) -/

/-- A recovered byte is `recb` of the ciphertext byte under the ciphertext byte before it, the first one's key being `k`. -/
theorem xformLoop_recover_read (T : Tables) (n i : Nat) (k : Byte) (m : Memory) (o : Nat) (h1 : i ≤ o) (h2 : o < i + n) :
    (xformLoop T .recover n i k m).read o = recb T (if o = i then k else m.read (o - 1)) (m.read o) := by
  induction n generalizing i k m with
  | zero => omega
  | succ n ih =>
    rw [xformLoop_succ]
    by_cases h : o = i
    · subst h
      rw [xformLoop_outside _ _ _ _ _ _ _ (by omega)]
      simp
    · have e : (m.write i (transformByte T .recover k (m.read i)).1).read o = m.read o := Memory.read_write_other _ _ h
      rw [ih _ _ _ (by omega) (by omega), if_neg h, e]
      by_cases h' : o = i + 1
      · subst h'
        simp
      · rw [if_neg h', Memory.read_write_other m (a := i) (b := o - 1) _ (by omega)]

/-- An obfuscated byte is `obfb` of the plaintext byte under the ciphertext byte that now stands before it. -/
theorem xformLoop_obfuscate_read (T : Tables) (n i : Nat) (k : Byte) (m : Memory) (o : Nat) (h1 : i ≤ o) (h2 : o < i + n) :
    (xformLoop T .obfuscate n i k m).read o =
      obfb T (if o = i then k else (xformLoop T .obfuscate n i k m).read (o - 1)) (m.read o) := by
  induction n generalizing i k m with
  | zero => omega
  | succ n ih =>
    rw [xformLoop_succ]
    by_cases h : o = i
    · subst h
      rw [xformLoop_outside _ _ _ _ _ _ _ (by omega)]
      simp
    · have e : (m.write i (transformByte T .obfuscate k (m.read i)).1).read o = m.read o := Memory.read_write_other _ _ h
      rw [ih _ _ _ (by omega) (by omega), if_neg h, e]
      by_cases h' : o = i + 1
      · subst h'
        simp only [if_true, Nat.add_sub_cancel]
        rw [xformLoop_outside _ _ _ _ _ _ _ (by omega)]
        simp
      · rw [if_neg h']

/-- The payload RECOVER leaves. -/
theorem recoveredMemory_payload (T : Tables) (m : Memory) {L o : Nat} (h1 : 16 ≤ o) (h2 : o < L) :
    (recoveredMemory T m L).read o = recb T (m.read (o - 1)) (m.read o) := by
  have e : recoveredMemory T m L = xformLoop T .recover (L - 16) 16 (m.read 15) m := rfl
  rw [e, xformLoop_recover_read _ _ _ _ _ _ h1 (by omega)]
  by_cases h : o = 16
  · subst h
    rfl
  · rw [if_neg h]

/-- RECOVER leaves the header and the bytes from `L` on. -/
theorem recoveredMemory_outside (T : Tables) (m : Memory) {L o : Nat} (hL : 16 ≤ L) (h : o < 16 ∨ L ≤ o) :
    (recoveredMemory T m L).read o = m.read o := by
  have e : recoveredMemory T m L = xformLoop T .recover (L - 16) 16 (m.read 15) m := rfl
  rw [e, xformLoop_outside _ _ _ _ _ _ _ (by omega)]

theorem obfuscatedMemory_eq (T : Tables) (m : Memory) (L : Nat) :
    obfuscatedMemory T m L = xformLoop T .obfuscate (L - 16) 16
      ((writeHeader (payloadDigest m L) m).read 15) (writeHeader (payloadDigest m L) m) := rfl

/-- The header OBFUSCATE leaves. -/
theorem obfuscatedMemory_header (T : Tables) (m : Memory) {L o : Nat} (h : o < 16) :
    (obfuscatedMemory T m L).read o = (payloadDigest m L)[o] := by
  rw [obfuscatedMemory_eq, xformLoop_outside _ _ _ _ _ _ _ (by omega), writeHeader_read, dif_pos h]

/-- The payload OBFUSCATE leaves. -/
theorem obfuscatedMemory_payload (T : Tables) (m : Memory) {L o : Nat} (h1 : 16 ≤ o) (h2 : o < L) :
    (obfuscatedMemory T m L).read o = obfb T ((obfuscatedMemory T m L).read (o - 1)) (m.read o) := by
  have e : (writeHeader (payloadDigest m L) m).read o = m.read o := by rw [writeHeader_read, dif_neg (by omega)]
  conv_lhs => rw [obfuscatedMemory_eq, xformLoop_obfuscate_read _ _ _ _ _ _ h1 (by omega), e, ← obfuscatedMemory_eq]
  by_cases h : o = 16
  · subst h
    rw [if_pos rfl, obfuscatedMemory_header _ _ (by omega), writeHeader_read, dif_pos (by omega : 15 < 16)]
  · rw [if_neg h]

/-- OBFUSCATE leaves the bytes from `L` on. -/
theorem obfuscatedMemory_outside (T : Tables) (m : Memory) {L o : Nat} (hL : 16 ≤ L) (h : L ≤ o) :
    (obfuscatedMemory T m L).read o = m.read o := by
  rw [obfuscatedMemory_eq, xformLoop_outside _ _ _ _ _ _ _ (by omega), writeHeader_read, dif_neg (by omega)]

/-! ## Completion -/

/-- RECOVER over a block the buffer covers. -/
theorem recoverWith_ready (T : Tables) {s : State} (hv : s.bufv = true) (hl : 16 ≤ s.length) (he : s.length ≤ s.extent) :
    recoverWith T s = .next ({ s with mem := recoveredMemory T s.mem s.length }.endRecover
      (BitVec.ofNat 5 (recoveredCount (recoveredMemory T s.mem s.length) s.length))) :=
  spanOperation_completes _ hv hl he

/-- OBFUSCATE over a block the buffer covers. -/
theorem obfuscateWith_ready (T : Tables) {s : State} (hv : s.bufv = true) (hl : 16 ≤ s.length)
    (he : s.length ≤ s.extent) :
    obfuscateWith T s = .next ({ s with mem := obfuscatedMemory T s.mem s.length }.endObfuscate) :=
  spanOperation_completes _ hv hl he

/-- A mismatch count is at most 16. -/
theorem mismatchCount_le (d : Slots) (m : Memory) : mismatchCount d m ≤ 16 := by
  unfold mismatchCount
  exact (List.countP_le_length).trans (by simp)

/-- The mismatch count as `RES` shows it. -/
theorem mismatchCount_result (d : Slots) (m : Memory) :
    ((BitVec.ofNat 5 (mismatchCount d m)).setWidth 32).toNat = mismatchCount d m := by
  have := mismatchCount_le d m
  simp [BitVec.toNat_setWidth, BitVec.toNat_ofNat]
  omega

/-- The bytes at a run of offsets depend only on what those offsets read. -/
theorem bytes_congr {m m' : Memory} {a n : Nat} (h : ∀ o, a ≤ o → o < a + n → m'.read o = m.read o) :
    m'.bytes a n = m.bytes a n := by
  unfold Memory.bytes
  refine List.map_congr_left fun o ho => ?_
  have := List.mem_range'_1.mp ho
  exact h o this.1 this.2

/-- The digest of a payload depends only on the payload. -/
theorem payloadDigest_congr {m m' : Memory} {L : Nat} (h : ∀ o, 16 ≤ o → o < L → m'.read o = m.read o) :
    payloadDigest m' L = payloadDigest m L := by
  unfold payloadDigest
  rw [bytes_congr]
  intro o h1 h2
  exact h o h1 (by simp only [Config.headerLen] at h1 h2; omega)

end Sys2Proof.Machine
end

