-- ==== Sys2Proof/Laws/PerInstr.lean ====
section
/-! SUPPORT. Statements about every operation, one lemma per constructor of Instr: the command word of an operation matches
its row of R52. -/

namespace Sys2Proof.Laws.WordMatchesRow

/-- The row of R52 an operation belongs to. -/
def rowOf : Instr → Row
  | .recb _ _ => ⟨"RECB", 0xFF0000FF, 0x00000001⟩
  | .obfb _ _ => ⟨"OBFB", 0xFF0000FF, 0x00000002⟩
  | .digest => ⟨"DIGEST", 0xFFFFFFFF, 0x00000003⟩
  | .recover => ⟨"RECOVER", 0xFFFFFFFF, 0x00000004⟩
  | .obfuscate => ⟨"OBFUSCATE", 0xFFFFFFFF, 0x00000005⟩

/-- The command word of the operation matches its own row, and the row is one of the table. -/
def Statement (i : Instr) : Prop := (rowOf i).selects (encode i) = true ∧ rowOf i ∈ rows

/-- The mask of format B leaves of a byte operation's word only its `OP`. -/
theorem byteWord_masked (op : Nat) (h : op = 1 ∨ op = 2) (key data : Byte) :
    byteWord op key data &&& 0xFF0000FF = BitVec.ofNat 32 op := by
  apply BitVec.eq_of_getLsbD_eq
  intro i hi
  rcases h with rfl | rfl <;> interval_cases i <;> simp [byteWord]

theorem recb (key data : Byte) : Statement (.recb key data) :=
  ⟨by simpa [Row.selects, rowOf, encode] using byteWord_masked 1 (by decide) key data, by simp [rowOf, rows]⟩

theorem obfb (key data : Byte) : Statement (.obfb key data) :=
  ⟨by simpa [Row.selects, rowOf, encode] using byteWord_masked 2 (by decide) key data, by simp [rowOf, rows]⟩

theorem digest : Statement .digest := ⟨by decide, by decide⟩

theorem recover : Statement .recover := ⟨by decide, by decide⟩

theorem obfuscate : Statement .obfuscate := ⟨by decide, by decide⟩

end Sys2Proof.Laws.WordMatchesRow
end

