-- ==== Sys2Proof/Laws/Step.lean ====
section
/-! SUPPORT. What one step can do: whose turn it is, and, when the CORE has it, the one sequencer operation of the phase. -/

namespace Sys2Proof.Machine

/-- The host moves in `IDLE` (R126). -/
theorem step_idle {s : State} (h : s.phase = .idle) : step s = hostTurn s := if_pos h

/-- The CORE moves in every other phase (R126). -/
theorem step_busy {s : State} (h : s.phase ≠ .idle) : step s = seqStep Config.tables s := if_neg h

/-- A step with the host about to make a move. -/
theorem step_move {s : State} {a : HostMove} {rest : List HostMove} (h : s.phase = .idle) (hh : s.host = a :: rest) :
    step s = hostMove a { s with host := rest } := by
  rw [step_idle h]
  unfold hostTurn
  rw [hh]

/-- A write of `CMD` decodes its word and performs the operation (R15). -/
theorem step_writeCmd {s : State} {w : Word} {rest : List HostMove} (h : s.phase = .idle)
    (hh : s.host = .writeCmd w :: rest) : step s = issue w { s with host := rest } := step_move h hh

theorem issue_ok {w : Word} {i : Instr} (s : State) (h : decode w = .ok i) : issue w s = exec i s := by
  unfold issue
  rw [h]

theorem issue_error {w : Word} {e : DecodeError} (s : State) (h : decode w = .error e) :
    issue w s = .next (s.fail .illegalCommand) := by
  unfold issue
  rw [h]

/-- The words that carry the extent duty are the three span operations' (R37). -/
theorem issuesSpanOperation_iff (w : Word) :
    issuesSpanOperation w = true ↔ decode w = .ok .digest ∨ decode w = .ok .recover ∨ decode w = .ok .obfuscate := by
  unfold issuesSpanOperation
  split <;> simp_all

/-- The step of each phase, by its own name. -/
theorem seqStep_of_phase (T : Config.Tables) (s : State) :
    seqStep T s = match s.phase with
      | .idle => .next s
      | .check op => seqCheck op s
      | .seed d => seqSeed d s
      | .xform d => seqXform T d s
      | .sumInit op => seqSumInit op s
      | .sum op => seqSum op s
      | .fix op j => seqFix op j s
      | .cmp j => seqCmp j s
      | .hdr j => seqHdr j s
      | .done op => seqDone op s := rfl

/-! Runs. -/

theorem run_zero (s : State) : Host.Core.run core 0 s = .next s := rfl

theorem run_succ {s t : State} (n : Nat) (h : step s = .next t) :
    Host.Core.run core (n + 1) s = Host.Core.run core n t := by
  have h' : core.step s = .next t := h
  simp only [Host.Core.run, h']

theorem run_succ_fault {s : State} (n : Nat) {r : Fault} (h : step s = .fault r) :
    Host.Core.run core (n + 1) s = .fault r := by
  have h' : core.step s = .fault r := h
  simp only [Host.Core.run, h']

theorem run_succ_refused {s : State} (n : Nat) {r : Refusal} (h : step s = .refused r) :
    Host.Core.run core (n + 1) s = .refused r := by
  have h' : core.step s = .refused r := h
  simp only [Host.Core.run, h']

/-- Runs add up. -/
theorem run_add {s t : State} (n m : Nat) (h : Host.Core.run core n s = .next t) :
    Host.Core.run core (n + m) s = Host.Core.run core m t := by
  induction n generalizing s with
  | zero =>
    cases h
    rw [Nat.zero_add]
  | succ n ih =>
    rw [Nat.succ_add]
    cases hs : step s with
    | next u =>
      rw [run_succ n hs] at h
      rw [run_succ _ hs, ih h]
    | fault r => rw [run_succ_fault n hs] at h; cases h
    | refused r => rw [run_succ_refused n hs] at h; cases h

end Sys2Proof.Machine
end

