-- ==== Sys2Proof/Laws/Sequencer.lean ====
section
/-! SUPPORT. The step level: what each loop of the sequencer leaves (spec/42_block_codec.md R99), as runs during which an
operation is in progress. -/

namespace Sys2Proof.Machine

/-- `n` steps lead from `s` to `t`, and an operation is in progress before each of them. -/
inductive BusyRun : Nat → State → State → Prop where
  | refl (s : State) : BusyRun 0 s s
  | next {n : Nat} {s u t : State} : s.phase ≠ .idle → step s = .next u → BusyRun n u t → BusyRun (n + 1) s t

theorem BusyRun.one {s t : State} (hp : s.phase ≠ .idle) (h : step s = .next t) : BusyRun 1 s t := .next hp h (.refl t)

/-- Runs one after the other. -/
theorem BusyRun.append {n m : Nat} {s t u : State} (h : BusyRun n s t) (h' : BusyRun m t u) : BusyRun (n + m) s u := by
  induction h with
  | refl => rwa [Nat.zero_add]
  | next hp hs _ ih => rw [Nat.succ_add]; exact .next hp hs (ih h')

/-- What such a run is in terms of the host's `run`. -/
theorem BusyRun.run {n : Nat} {s t : State} (h : BusyRun n s t) :
    Host.Core.run core n s = .next t ∧
      ∀ m, m < n → ∃ u : State, Host.Core.run core m s = .next u ∧ u.phase ≠ .idle := by
  induction h with
  | refl => exact ⟨rfl, fun m hm => absurd hm (Nat.not_lt_zero m)⟩
  | next hp hs _ ih =>
    refine ⟨(run_succ _ hs).trans ih.1, fun m hm => ?_⟩
    cases m with
    | zero => exact ⟨_, rfl, hp⟩
    | succ m =>
      obtain ⟨u, hu, hup⟩ := ih.2 m (Nat.lt_of_succ_lt_succ hm)
      exact ⟨u, (run_succ m hs).trans hu, hup⟩

/-- The CORE's step of a phase. -/
theorem step_of_phase {s : State} {p : Phase} (hp : s.phase = p) (hn : p ≠ .idle) :
    s.phase ≠ .idle ∧ step s = seqStep Config.tables s := by
  subst hp
  exact ⟨hn, step_busy hn⟩

/-- A checked read that succeeded. -/
theorem withByte_next {s t : State} {off : Nat} {k : Byte → State} (h : withByte s off k = .next t) :
    off < s.extent ∧ t = k (s.mem.read off) := by
  rcases withByte_cases s off k with ⟨h1, h2⟩ | ⟨-, h2⟩ <;> rw [h2] at h <;> cases h
  exact ⟨h1, rfl⟩

theorem withByte_inside {s : State} {off : Nat} (k : Byte → State) (h : off < s.extent) :
    withByte s off k = .next (k (s.mem.read off)) := if_pos h

/-- `IDX` below `LEN` does not wrap when it is incremented. -/
theorem idx_succ {s : State} (h : s.idx.toNat < s.length) : (s.idx + 1).toNat = s.idx.toNat + 1 := by
  have h1 : s.length < 2 ^ 32 := s.len.isLt
  rw [BitVec.toNat_add, show (1 : Word).toNat = 1 from rfl]
  omega

theorem idx_eq_len {s : State} (h : s.idx.toNat = s.length) : { s with idx := s.len } = s := by
  have hi : s.len = s.idx := (BitVec.eq_of_toNat_eq h).symm
  cases s
  exact congrArg (fun i => State.mk _ _ i _ _ _ _ _ _ _ _ _ _ _ _ _) hi

/-! One lemma per transition of R99's table. -/

theorem step_seed {d : Dir} {s : State} (hp : s.phase = .seed d) (he : 16 ≤ s.extent) :
    step s = .next
      { s with k := s.mem.read Config.seedOffset, idx := BitVec.ofNat 32 Config.headerLen, phase := .xform d } := by
  rw [(step_of_phase hp (by simp)).2, seqStep_of_phase, hp]
  exact withByte_inside _ he

theorem step_xform_byte {d : Dir} {s : State} (hp : s.phase = .xform d) (hi : s.idx.toNat < s.length)
    (he : s.length ≤ s.extent) :
    step s = .next
      { s with
        mem := s.mem.write s.idx.toNat (transformByte Config.tables d s.k (s.mem.read s.idx.toNat)).1
        k := (transformByte Config.tables d s.k (s.mem.read s.idx.toNat)).2, idx := s.idx + 1 } := by
  have e : step s = seqXform Config.tables d s := by rw [(step_of_phase hp (by simp)).2, seqStep_of_phase, hp]
  rw [e]
  exact (if_pos hi).trans (withByte_inside _ (Nat.lt_of_lt_of_le hi he))

theorem step_xform_end {d : Dir} {s : State} (hp : s.phase = .xform d) (hi : s.length ≤ s.idx.toNat) :
    step s = .next { s with phase := afterXform d } := by
  rw [(step_of_phase hp (by simp)).2, seqStep_of_phase, hp]
  exact if_neg (by omega)

theorem step_sumInit {op : SpanOp} {s : State} (hp : s.phase = .sumInit op) :
    step s = .next { s with acc := Config.magic, idx := BitVec.ofNat 32 op.first, phase := .sum op } := by
  rw [(step_of_phase hp (by simp)).2, seqStep_of_phase, hp]
  rfl

theorem step_sum_byte {op : SpanOp} {s : State} (hp : s.phase = .sum op) (hi : s.idx.toNat < s.length)
    (he : s.length ≤ s.extent) :
    step s = .next { s with acc := addSlot s.acc s.idx.toNat (s.mem.read s.idx.toNat), idx := s.idx + 1 } := by
  have e : step s = seqSum op s := by rw [(step_of_phase hp (by simp)).2, seqStep_of_phase, hp]
  rw [e]
  exact (if_pos hi).trans (withByte_inside _ (Nat.lt_of_lt_of_le hi he))

theorem step_sum_end {op : SpanOp} {s : State} (hp : s.phase = .sum op) (hi : s.length ≤ s.idx.toNat) :
    step s = .next { s with phase := .fix op 1 } := by
  rw [(step_of_phase hp (by simp)).2, seqStep_of_phase, hp]
  exact if_neg (by omega)

theorem step_fix_slot {op : SpanOp} {j : Nat} {s : State} (hp : s.phase = .fix op j) (hj : j < 16) :
    step s = .next { s with acc := fixSlot s.acc j, phase := .fix op (j + 1) } := by
  rw [(step_of_phase hp (by simp)).2, seqStep_of_phase, hp]
  exact if_pos hj

theorem step_fix_end {op : SpanOp} {j : Nat} {s : State} (hp : s.phase = .fix op j) (hj : 16 ≤ j) :
    step s = .next (seqAfterFix op s) := by
  rw [(step_of_phase hp (by simp)).2, seqStep_of_phase, hp]
  exact if_neg (by omega)

theorem step_cmp_byte {j : Nat} {s : State} (hp : s.phase = .cmp j) (hj : j < 16) (he : 16 ≤ s.extent) :
    step s = .next
      { s with cnt := if s.acc[j] ≠ s.mem.read j then s.cnt + 1 else s.cnt, phase := .cmp (j + 1) } := by
  rw [(step_of_phase hp (by simp)).2, seqStep_of_phase, hp]
  exact (dif_pos hj).trans (withByte_inside _ (by omega))

theorem step_cmp_end {j : Nat} {s : State} (hp : s.phase = .cmp j) (hj : 16 ≤ j) :
    step s = .next { s with phase := .done (.block .recover) } := by
  rw [(step_of_phase hp (by simp)).2, seqStep_of_phase, hp]
  exact dif_neg (by omega)

theorem step_hdr_byte {j : Nat} {s : State} (hp : s.phase = .hdr j) (hj : j < 16) (he : 16 ≤ s.extent) :
    step s = .next { s with mem := s.mem.write j s.acc[j], phase := .hdr (j + 1) } := by
  rw [(step_of_phase hp (by simp)).2, seqStep_of_phase, hp]
  exact (dif_pos hj).trans (if_pos (by omega))

theorem step_hdr_end {j : Nat} {s : State} (hp : s.phase = .hdr j) (hj : 16 ≤ j) :
    step s = .next { s with phase := .seed .obfuscate } := by
  rw [(step_of_phase hp (by simp)).2, seqStep_of_phase, hp]
  exact dif_neg (by omega)

theorem step_done {op : SpanOp} {s : State} (hp : s.phase = .done op) : step s = seqDone op s := by
  rw [(step_of_phase hp (by simp)).2, seqStep_of_phase, hp]

theorem step_check {op : SpanOp} {s : State} (hp : s.phase = .check op) :
    step s = spanOperation op s { s with phase := afterCheck op } := by
  rw [(step_of_phase hp (by simp)).2, seqStep_of_phase, hp]
  rfl

/-! The loops. -/

/-- The payload loop from `IDX` on. -/
theorem busy_xform {d : Dir} (n : Nat) {s : State} (hp : s.phase = .xform d) (hn : s.idx.toNat + n = s.length)
    (he : s.length ≤ s.extent) :
    ∃ k : Byte, BusyRun n s
      { s with mem := xformLoop Config.tables d n s.idx.toNat s.k s.mem, k := k, idx := s.len } := by
  induction n generalizing s with
  | zero =>
    have e : { s with idx := s.len } = s := idx_eq_len hn
    refine ⟨s.k, ?_⟩
    show BusyRun 0 s { s with idx := s.len }
    rw [e]
    exact .refl s
  | succ n ih =>
    have hlt : s.idx.toNat < s.length := by omega
    have hi := idx_succ hlt
    obtain ⟨k, hk⟩ := ih (s := { s with
          mem := s.mem.write s.idx.toNat (transformByte Config.tables d s.k (s.mem.read s.idx.toNat)).1
          k := (transformByte Config.tables d s.k (s.mem.read s.idx.toNat)).2, idx := s.idx + 1 })
          hp (by show (s.idx + 1).toNat + n = s.length; omega) he
    refine ⟨k, .next (step_of_phase hp (by simp)).1 (step_xform_byte hp hlt he) ?_⟩
    rw [xformLoop_succ, ← hi]
    exact hk

/-- `SEED` and `XFORM`: the payload transformed in place. -/
theorem busy_seed {d : Dir} {s : State} (hp : s.phase = .seed d) (hl : 16 ≤ s.length) (he : s.length ≤ s.extent) :
    ∃ k : Byte, BusyRun (s.length - 16 + 2) s
      { s with mem := xformPayload Config.tables d s.mem s.length, k := k, idx := s.len, phase := afterXform d } := by
  obtain ⟨k, hk⟩ := busy_xform (s.length - 16)
    (s := { s with k := s.mem.read Config.seedOffset, idx := BitVec.ofNat 32 Config.headerLen, phase := .xform d })
    rfl (by show 16 + (s.length - 16) = s.length; omega) he
  exact ⟨k, .next (step_of_phase hp (by simp)).1 (step_seed hp (by omega))
    (hk.append (.one (fun h => nomatch h) (step_xform_end rfl (Nat.le_refl _))))⟩

theorem bytes_succ (m : Memory) (a n : Nat) : m.bytes a (n + 1) = m.read a :: m.bytes (a + 1) n := rfl

/-- The summing loop from `IDX` on. -/
theorem busy_sum {op : SpanOp} (n : Nat) {s : State} (hp : s.phase = .sum op) (hn : s.idx.toNat + n = s.length)
    (he : s.length ≤ s.extent) :
    BusyRun n s { s with acc := accumulate s.acc s.idx.toNat (s.mem.bytes s.idx.toNat n), idx := s.len } := by
  induction n generalizing s with
  | zero =>
    have e : { s with idx := s.len } = s := idx_eq_len hn
    show BusyRun 0 s { s with idx := s.len }
    rw [e]
    exact .refl s
  | succ n ih =>
    have hlt : s.idx.toNat < s.length := by omega
    have hi := idx_succ hlt
    have hk := ih (s := { s with acc := addSlot s.acc s.idx.toNat (s.mem.read s.idx.toNat), idx := s.idx + 1 })
      hp (by show (s.idx + 1).toNat + n = s.length; omega) he
    refine .next (step_of_phase hp (by simp)).1 (step_sum_byte hp hlt he) ?_
    rw [bytes_succ, accumulate, ← hi]
    exact hk

/-- `SUMINIT` and `SUM`: the accumulated slots of the summed bytes. -/
theorem busy_sumInit {op : SpanOp} {s : State} (hp : s.phase = .sumInit op) (hl : op.first ≤ s.length)
    (he : s.length ≤ s.extent) :
    BusyRun (s.length - op.first + 2) s
      { s with
        acc := accumulate Config.magic op.first (spanBytes op s.mem s.length), idx := s.len, phase := .fix op 1 } := by
  have hf : (BitVec.ofNat 32 op.first).toNat = op.first := by rcases op with _ | d <;> rfl
  have hk := busy_sum (s.length - op.first)
    (s := { s with acc := Config.magic, idx := BitVec.ofNat 32 op.first, phase := .sum op })
    rfl (by show (BitVec.ofNat 32 op.first).toNat + _ = s.length; omega) he
  have := BusyRun.next (step_of_phase hp (by simp)).1 (step_sumInit hp)
    (hk.append (.one (fun h => nomatch h) (step_sum_end rfl (Nat.le_refl _))))
  simp only [hf] at this
  exact this

theorem seqAfterFix_phase (op : SpanOp) (s : State) (p : Phase) : seqAfterFix op { s with phase := p } = seqAfterFix op s := by
  rcases op with _ | d
  · rfl
  · cases d <;> rfl

/-- The de-collision loop from step `j` on. -/
theorem busy_fix {op : SpanOp} (n j : Nat) {s : State} (hp : s.phase = .fix op j) (hn : j + n = 16) :
    BusyRun (n + 1) s (seqAfterFix op { s with acc := (List.range' j n).foldl fixSlot s.acc }) := by
  induction n generalizing s j with
  | zero => exact .one (step_of_phase hp (by simp)).1 (step_fix_end hp (by omega))
  | succ n ih =>
    have hk := ih (j + 1) (s := { s with acc := fixSlot s.acc j, phase := .fix op (j + 1) }) rfl (by omega)
    refine .next (step_of_phase hp (by simp)).1 (step_fix_slot hp (by omega)) ?_
    rw [List.range'_succ, List.foldl_cons,
      ← seqAfterFix_phase op { s with acc := (List.range' (j + 1) n).foldl fixSlot (fixSlot s.acc j) } (.fix op (j + 1))]
    exact hk

/-- `FIX`: the whole pass. -/
theorem busy_decollide {op : SpanOp} {s : State} (hp : s.phase = .fix op 1) :
    BusyRun 16 s (seqAfterFix op { s with acc := decollide s.acc }) := busy_fix 15 1 hp rfl

theorem drop_finRange {j : Nat} (hj : j < 16) :
    (List.finRange 16).drop j = (⟨j, hj⟩ : Fin 16) :: (List.finRange 16).drop (j + 1) := by
  rw [List.drop_eq_getElem_cons (by simpa using hj)]
  simp

/-- The comparing loop from header byte `j` on. -/
theorem busy_cmp (n j : Nat) {s : State} (hp : s.phase = .cmp j) (hn : j + n = 16) (he : 16 ≤ s.extent) :
    BusyRun (n + 1) s
      { s with
        cnt := s.cnt + BitVec.ofNat 5 (((List.finRange 16).drop j).countP fun i : Fin 16 => s.acc[i] ≠ s.mem.read i)
        phase := .done (.block .recover) } := by
  induction n generalizing s j with
  | zero =>
    obtain rfl : j = 16 := by omega
    have e : s.cnt + BitVec.ofNat 5 (((List.finRange 16).drop 16).countP fun i : Fin 16 => s.acc[i] ≠ s.mem.read i) = s.cnt :=
      BitVec.add_zero _
    rw [e]
    exact .one (step_of_phase hp (by simp)).1 (step_cmp_end hp (by omega))
  | succ n ih =>
    have hj : j < 16 := by omega
    have hk := ih (j + 1) (s :=
      { s with cnt := if s.acc[j] ≠ s.mem.read j then s.cnt + 1 else s.cnt, phase := .cmp (j + 1) }) rfl (by omega) he
    refine .next (step_of_phase hp (by simp)).1 (step_cmp_byte hp hj he) ?_
    have hc : s.cnt + BitVec.ofNat 5 (((List.finRange 16).drop j).countP fun i : Fin 16 => s.acc[i] ≠ s.mem.read i) =
        (if s.acc[j] ≠ s.mem.read j then s.cnt + 1 else s.cnt) +
          BitVec.ofNat 5 (((List.finRange 16).drop (j + 1)).countP fun i : Fin 16 => s.acc[i] ≠ s.mem.read i) := by
      rw [drop_finRange hj, List.countP_cons]
      by_cases h : s.acc[j] = s.mem.read j
      · simp [h]
      · have h' : ¬ s.acc[(⟨j, hj⟩ : Fin 16)] = s.mem.read (⟨j, hj⟩ : Fin 16).val := h
        simp only [ne_eq, h, h', not_false_eq_true, if_true, decide_true]
        rw [BitVec.ofNat_add, BitVec.add_assoc, BitVec.add_comm (1 : BitVec 5)]
        rfl
    rw [hc]
    exact hk

/-- The header loop from header byte `j` on. -/
theorem busy_hdr (n j : Nat) {s : State} (hp : s.phase = .hdr j) (hn : j + n = 16) (he : 16 ≤ s.extent) :
    BusyRun (n + 1) s
      { s with mem := writeHeaderFrom s.acc ((List.finRange 16).drop j) s.mem, phase := .seed .obfuscate } := by
  induction n generalizing s j with
  | zero =>
    obtain rfl : j = 16 := by omega
    exact .one (step_of_phase hp (by simp)).1 (step_hdr_end hp (by omega))
  | succ n ih =>
    have hj : j < 16 := by omega
    have hk := ih (j + 1) (s := { s with mem := s.mem.write j s.acc[j], phase := .hdr (j + 1) }) rfl (by omega) he
    refine .next (step_of_phase hp (by simp)).1 (step_hdr_byte hp hj he) ?_
    rw [drop_finRange hj]
    exact hk

end Sys2Proof.Machine
end

