-- ==== Sys2Proof/Tests/Slice0.lean ====
section
/-! SUPPORT. Tests of the model against the spec's own words and vectors (spec/95_test_vectors.md), and for every obligation
with hypotheses a witness that meets them. -/

namespace Sys2Proof.Tests

open Sys2Proof.Machine

/-- A machine whose host has supplied a buffer of these bytes and set `LEN`, waiting for a command. -/
def withBuffer (bytes : List Byte) (len : Word) : State :=
  { State.reset with bufv := true, buf := 1, len := len, mem := Memory.ofBytes 0 bytes, extent := bytes.length }

/-- The first `n` bytes of the buffer after an operation that completed, and `RES`. -/
def blockAfter (n : Nat) (r : Result) : Option (List Byte × Word) :=
  match r with
  | .next t => some (t.mem.bytes 0 n, t.res)
  | .fault _ => none
  | .refused _ => none

/-- `DG`, `RES` and `ERR` after an operation. -/
def digestAfter (r : Result) : Option (Slots × Word × BitVec 2) :=
  match r with
  | .next t => some (t.dg, t.res, t.err)
  | .fault _ => none
  | .refused _ => none

/-- `RES`, `ERR` and the first `n` bytes of the buffer after an operation. -/
def failureAfter (n : Nat) (r : Result) : Option (Word × BitVec 2 × List Byte) :=
  match r with
  | .next t => some (t.res, t.err, t.mem.bytes 0 n)
  | .fault _ => none
  | .refused _ => none

/-! ## Decoding: one word per operation, bit by bit from R50 and R60 (reserved, DATA, KEY, reserved, OP) -/

theorem test_decode_recb :
    decode (0b00000000#8 ++ 0b00100100#8 ++ 0b00010000#8 ++ 0b00000#5 ++ 0b001#3) = .ok (.recb 0x10 0x24) := by decide

theorem test_decode_obfb :
    decode (0b00000000#8 ++ 0b10000001#8 ++ 0b11001000#8 ++ 0b00000#5 ++ 0b010#3) = .ok (.obfb 0xC8 0x81) := by decide

theorem test_decode_digest :
    decode (0b00000000#8 ++ 0b00000000#8 ++ 0b00000000#8 ++ 0b00000#5 ++ 0b011#3) = .ok .digest := by decide

theorem test_decode_recover :
    decode (0b00000000#8 ++ 0b00000000#8 ++ 0b00000000#8 ++ 0b00000#5 ++ 0b100#3) = .ok .recover := by decide

theorem test_decode_obfuscate :
    decode (0b00000000#8 ++ 0b00000000#8 ++ 0b00000000#8 ++ 0b00000#5 ++ 0b101#3) = .ok .obfuscate := by decide

/-- Words of V-T14, V-T17 and P5, written by the spec. -/
theorem test_encode_vectors :
    encode (.recb 0xC8 0x81) = 0x0081C801 ∧ encode (.obfb 0xFF 0xFF) = 0x00FFFF02 ∧
      encode (.obfb 0x41 0x4C) = 0x004C4102 ∧ encode (.recb 0xAB 0x10) = 0x0010AB01 := by decide

/-- The host's numbering of a row's word. -/
theorem test_decodeTableWord :
    decodeTableWord 32 0x00241001 = some (.recb 0x10 0x24) ∧ decodeTableWord 32 5 = some .obfuscate ∧
      decodeTableWord 32 6 = none := by decide

/-- No word selects two rows of R52: each two differ in a bit that both masks look at. -/
theorem test_rows_disjoint :
    rows.Pairwise (fun r r' => (r.pat ^^^ r'.pat) &&& (r.mask &&& r'.mask) ≠ 0) := by decide

/-! ## Ill-formed words, one per check of R54 (V-E9 to V-E13) -/

theorem test_illegal_op :
    commandLegal 0 = false ∧ opLegal 0 = false ∧ decode 0 = .error .illegalOp ∧
      opLegal 6 = false ∧ decode 6 = .error .illegalOp ∧ opLegal 7 = false ∧ decode 7 = .error .illegalOp := by decide

theorem test_illegal_reserved :
    commandLegal 0x01000001 = false ∧ reservedClear 0x01000001 = false ∧ decode 0x01000001 = .error .reservedBits ∧
      commandLegal 0x00000009 = false ∧ reservedClear 0x00000009 = false ∧ decode 0x00000009 = .error .reservedBits := by
  decide

theorem test_illegal_operandFields :
    commandLegal 0x00000104 = false ∧ operandFieldsClear 0x00000104 = false ∧
      decode 0x00000104 = .error .operandFieldsNotZero ∧
      decode 0x00800003 = .error .operandFieldsNotZero := by decide

/-- The same words pass the checks they do not break. -/
theorem test_legal_words :
    commandLegal 0x00241001 = true ∧ opLegal 0x00241001 = true ∧ reservedClear 0x00241001 = true ∧
      operandFieldsClear 0x00241001 = true ∧ (Instr.recb 0x10 0x24).wellFormed = true := by decide

/-! ## Behaviour, from the spec's vectors -/

/-- Section 3.1: `C8` has class 4 and lutIndex 5, `FE` 2 and 7: the key is unsigned. -/
theorem test_key_unsigned :
    keyClass 0xC8 = 4 ∧ lutIndex 0xC8 = 5 ∧ keyClass 0xFE = 2 ∧ lutIndex 0xFE = 7 := by decide

/-- V-T3, V-T14 (tables T0). -/
theorem test_recb_t0 : recb Config.t0 0x01 0x80 = 0x13 ∧ recb Config.t0 0xC8 0x81 = 0xAA := by decide +kernel

/-- V-E14: RECB needs no buffer; `RES` and `ERR` are 0. -/
theorem test_recb_no_buffer :
    failureAfter 0 (exec (.recb 0x10 0x24) { State.reset with res := 7, err := 2 }) = some (0, 0, []) := by decide

/-- V-T3, V-T14 (tables T0). -/
theorem test_obfb_t0 : obfb Config.t0 0x01 0x80 = 0x49 ∧ obfb Config.t0 0xC8 0x81 = 0xE4 := by decide +kernel

/-- V-D13: the pass meets the mutated slot. -/
theorem test_digest_sequential :
    digestAfter (exec .digest (withBuffer [0x0F, 0xED, 0xAA] 3)) =
      some (#v[0x10, 0xEF, 0x10, 0x67, 0x89, 0xAB, 0xCD, 0xEF, 0xFE, 0xDC, 0xBA, 0x98, 0x76, 0x54, 0x32, 0x10], 0, 0) := by
  decide +kernel

/-- V-D6: byte 16 returns to slot 0. -/
theorem test_digest_wraps :
    digestAfter (exec .digest (withBuffer (List.replicate 17 0x01) 17)) =
      some (#v[0x03, 0x24, 0x46, 0x68, 0x8A, 0xAC, 0xCE, 0xF0, 0xFF, 0xDD, 0xBB, 0x99, 0x77, 0x55, 0x33, 0x11], 0, 0) := by
  decide +kernel

/-- The header of V-B1, V-B4 and V-B5. -/
def magicBytes : List Byte :=
  [0x01, 0x23, 0x45, 0x67, 0x89, 0xAB, 0xCD, 0xEF, 0xFE, 0xDC, 0xBA, 0x98, 0x76, 0x54, 0x32, 0x10]

/-- The payload of V-B1 after OBFUSCATE, tables T0. -/
def cipherB1 : List Byte :=
  [0x24, 0xC0, 0x96, 0x01, 0x09, 0x39, 0xAB, 0xB2, 0x66, 0x43, 0x90, 0x70, 0x05, 0xE9, 0x07, 0xC9]

/-- V-B3 (T0): a corrupted seed, payload byte 16 wrong, two mismatches. -/
theorem test_recover_seed :
    blockAfter 32 (recoverWith Config.t0 (withBuffer (magicBytes.set 15 0x11 ++ cipherB1) 32)) =
      some (magicBytes.set 15 0x11 ++ (0xE9 :: List.replicate 15 0), 2) := by
  decide +kernel

/-- V-B2 (T0): a flipped bit at offset 20. -/
theorem test_recover_flip :
    blockAfter 32 (recoverWith Config.t0 (withBuffer (magicBytes ++ cipherB1.set 4 0x08) 32)) =
      some (magicBytes ++ [0, 0, 0, 0, 0x02, 0xAA, 0, 0, 0, 0, 0, 0, 0, 0, 0, 0], 2) := by
  decide +kernel

/-- V-B1 (T0). -/
theorem test_obfuscate_zeros :
    blockAfter 32 (obfuscateWith Config.t0 (withBuffer (List.replicate 16 0xAA ++ List.replicate 16 0) 32)) =
      some (magicBytes ++ cipherB1, 0) := by
  decide +kernel

/-- V-B8 (T0): bytes beyond `LEN` are untouched. -/
theorem test_obfuscate_beyond :
    blockAfter 24 (obfuscateWith Config.t0
        (withBuffer (List.replicate 16 0x99 ++ [1, 2, 3, 4, 0xEE, 0xEE, 0xEE, 0xEE]) 20)) =
      some ([0x02, 0x25, 0x48, 0x6B, 0x89, 0xAB, 0xCD, 0xEF, 0xFE, 0xDC, 0xBA, 0x98, 0x76, 0x54, 0x32, 0x10,
        0x26, 0xC3, 0xA9, 0xFB, 0xEE, 0xEE, 0xEE, 0xEE], 0) := by
  decide +kernel

/-- V-E3: a missing buffer is reported before an undersized block. -/
theorem test_missing_before_undersized :
    failureAfter 0 (exec .recover { State.reset with len := 3 }) = some (0xFFFFFFFF, 1, []) := by decide

/-- V-E4: `LEN = 15`. -/
theorem test_undersized :
    failureAfter 16 (exec .recover (withBuffer (List.replicate 16 0x11) 15)) =
      some (0xFFFFFFFE, 2, List.replicate 16 0x11) := by decide +kernel

/-- V-E9: the word 0. -/
theorem test_illegal_word : failureAfter 0 (issue 0 State.reset) = some (0xFFFFFFFD, 3, []) := by decide

/-- R99: DIGEST of an empty span at the step level, in the 21 steps of this model. -/
theorem test_step_level :
    digestAfter (Host.Core.run core 21 { withBuffer [] 0 with host := [.writeCmdBySteps 3] }) =
      some (Config.magic, 0, 0) := by decide +kernel

/-! ## Witnesses: concrete states and operands that meet the hypotheses of each obligation -/

/-- A block of the least length, one of 18 bytes and one of 32. -/
theorem witness_blockReady :
    BlockReady (withBuffer (List.replicate 16 0x11) 16) ∧ BlockReady (withBuffer (List.replicate 20 0x11) 18) ∧
      BlockReady (withBuffer (List.replicate 32 0x11) 32) :=
  ⟨⟨⟨rfl, by decide⟩, by decide⟩, ⟨⟨rfl, by decide⟩, by decide⟩, ⟨⟨rfl, by decide⟩, by decide⟩⟩

theorem witness_EncodeOfDecode : decode 0x00FFFF02 = .ok (.obfb 0xFF 0xFF) := by decide

/-- Each clause of the statement, and the last with a word that matches no row. -/
theorem witness_DecodeByMaskAndMatch :
    (0x00FF0001 : Word) &&& 0xFF0000FF = 0x00000001 ∧ (0x0000FF02 : Word) &&& 0xFF0000FF = 0x00000002 ∧
      (3 : Word) &&& 0xFFFFFFFF = 3 ∧ (4 : Word) &&& 0xFFFFFFFF = 4 ∧ (5 : Word) &&& 0xFFFFFFFF = 5 ∧
      commandLegal 8 = false := by decide

/-- The host about to write `w`. -/
def aboutTo (a : HostMove) : State := { State.reset with host := [a] }

/-- Each of R54's conditions: `OP` 0, 6, 7; bit 24; bit 31; bit 3; bit 7; bit 8 and bit 23 in format S. -/
theorem witness_IllegalWordFails :
    (aboutTo (.writeCmd 0)).phase = .idle ∧ (aboutTo (.writeCmd 0)).host = [.writeCmd 0] ∧
      ((0 : Word).extractLsb' 0 3).toNat = 0 ∧ ((6 : Word).extractLsb' 0 3).toNat = 6 ∧
      ((7 : Word).extractLsb' 0 3).toNat = 7 ∧ (0x01000001 : Word).extractLsb' 24 8 ≠ 0#8 ∧
      (0x80000002 : Word).extractLsb' 24 8 ≠ 0#8 ∧ (0x00000009 : Word).extractLsb' 3 5 ≠ 0#5 ∧
      (0x00000083 : Word).extractLsb' 3 5 ≠ 0#5 ∧ (0x00000103 : Word).extractLsb' 8 16 ≠ 0#16 ∧
      3 ≤ ((0x00000103 : Word).extractLsb' 0 3).toNat ∧ (0x00800005 : Word).extractLsb' 8 16 ≠ 0#16 ∧
      ((0x00800005 : Word).extractLsb' 0 3).toNat ≤ 5 ∧ commandLegal 0xFFFFFFFF = false := by
  refine ⟨rfl, rfl, ?_⟩
  decide

theorem witness_StepRunsDecodedOperation :
    (aboutTo (.writeCmd 4)).phase = .idle ∧ (aboutTo (.writeCmd 4)).host = [.writeCmd 4] ∧ decode 4 = .ok .recover :=
  ⟨rfl, rfl, by decide⟩

/-- The greatest keys that have a partner, in both distances. -/
theorem witness_KeySelectors : (164 : Byte).toNat + 91 ≤ 255 ∧ (73 : Byte).toNat + 182 ≤ 255 := by decide

/-- Admissible tables exist (the obligations TablesKeepTheirContract, BitPermutationLaws, ByteTransformsAreInverse and
TableFreeIdentities), and their entries are bit permutations that agree with themselves. -/
theorem witness_admissible : Config.t0.Admissible ∧ Config.IsBitPermutation (Config.t0.permRec 1) :=
  ⟨Config.t0_admissible, Config.t0_admissible.bitsRec 1⟩

/-- Slots 10 10 EF, and both branches of the pass. -/
theorem witness_DecollisionIsSequential :
    ((Config.magic.set 0 0x10).set 1 0x10 |>.set 2 0xEF)[(0 : Fin 16)] = 0x10 ∧
      ((Config.magic.set 0 0x10).set 1 0x10 |>.set 2 0xEF)[(1 : Fin 16)] = 0x10 ∧
      ((Config.magic.set 0 0x10).set 1 0x10 |>.set 2 0xEF)[(2 : Fin 16)] = 0xEF ∧
      (decollide ((Config.magic.set 0 0x10).set 1 0x10 |>.set 2 0xEF))[(1 : Fin 16)] = 0xEF ∧
      (decollide ((Config.magic.set 0 0x10).set 1 0x10 |>.set 2 0xEF))[(2 : Fin 16)] = 0x10 ∧
      (decollide Config.magic)[(1 : Fin 16)] = 0x23 := by decide +kernel

/-- V-D18: digest bytes 0 and 15 both 0x10. -/
theorem witness_DigestHasNoEqualNeighbours :
    (digest [0x0F])[(15 : Fin 16)] = (digest [0x0F])[(0 : Fin 16)] := by decide +kernel

/-- V-D7's cousin: sixteen pairs of bytes whose sums are 0 modulo 256. -/
theorem witness_EmptySpanDigest : ∀ j < 16, slotSum (List.replicate 32 0x80) j % 256 = 0 := by decide +kernel

/-- Two different spans with the same slot sums, and two positions equal modulo 16. -/
theorem witness_DigestDependsOnSlotSums :
    (∀ j < 16, slotSum [0x80] j % 256 = slotSum (0x40 :: List.replicate 15 0 ++ [0x40]) j % 256) ∧
      0 < (List.replicate 17 (1 : Byte)).length ∧ 16 < (List.replicate 17 (1 : Byte)).length ∧ 0 % 16 = 16 % 16 := by
  decide +kernel

/-- DIGEST: no buffer; the empty span; a span of one byte. -/
theorem witness_DigestResult :
    State.reset.bufv = false ∧ SpanReady (withBuffer [] 0) ∧ (withBuffer [] 0).length = 0 ∧
      SpanReady (withBuffer [0xFF] 1) :=
  ⟨rfl, ⟨rfl, by decide⟩, rfl, ⟨rfl, by decide⟩⟩

/-- RECOVER and OBFUSCATE: no buffer; `LEN = 15`; the least block. -/
theorem witness_RecoverResult_ObfuscateResult :
    State.reset.bufv = false ∧
      ((withBuffer (List.replicate 16 0x11) 15).bufv = true ∧ (withBuffer (List.replicate 16 0x11) 15).length < 16) ∧
      BlockReady (withBuffer (List.replicate 16 0x11) 16) :=
  ⟨rfl, ⟨rfl, by decide⟩, ⟨rfl, by decide⟩, by decide⟩

/-- Two blocks with the same payload and different headers. -/
theorem witness_OldHeaderIsNeverRead :
    BlockReady (withBuffer (List.replicate 16 0x11 ++ [0x7E]) 17) ∧
      BlockReady (withBuffer (List.replicate 16 0x22 ++ [0x7E]) 17) ∧
      (withBuffer (List.replicate 16 0x22 ++ [0x7E]) 17).len = (withBuffer (List.replicate 16 0x11 ++ [0x7E]) 17).len ∧
      ∀ o, 16 ≤ o → o < 17 → (withBuffer (List.replicate 16 0x22 ++ [0x7E]) 17).mem.read o =
        (withBuffer (List.replicate 16 0x11 ++ [0x7E]) 17).mem.read o := by
  refine ⟨⟨⟨rfl, by decide⟩, by decide⟩, ⟨⟨rfl, by decide⟩, by decide⟩, rfl, fun o h1 h2 => ?_⟩
  obtain rfl : o = 16 := by omega
  decide

/-- A change at a header byte, at the seed, at the first and at the last payload byte. -/
theorem witness_ErrorsStayLocal :
    BlockReady (withBuffer (List.replicate 32 0x11) 32) ∧ (0 : Nat) < 15 ∧ (15 : Nat) < 32 ∧ (16 : Nat) < 32 ∧
      (31 : Nat) < (withBuffer (List.replicate 32 0x11) 32).length ∧
      (0x12 : Byte) ≠ (withBuffer (List.replicate 32 0x11) 32).mem.read 0 :=
  ⟨⟨⟨rfl, by decide⟩, by decide⟩, by decide, by decide, by decide, by decide, by decide⟩

/-- An intact block: RECOVER returns 0 on the least block whose header is `MAGIC`, and a header byte may be altered. -/
theorem witness_ErrorsStayLocal_intact :
    BlockReady (withBuffer magicBytes 16) ∧ (0x12 : Byte) ≠ (withBuffer magicBytes 16).mem.read 14 ∧
      blockAfter 16 (exec .recover (withBuffer magicBytes 16)) = some (magicBytes, 0) :=
  ⟨⟨⟨rfl, by decide⟩, by decide⟩, by decide, by decide +kernel⟩

/-- A byte beyond `LEN` in the buffer, and the first one that is. -/
theorem witness_NothingAtOrBeyondLength :
    BlockReady (withBuffer (List.replicate 20 0x11) 18) ∧ (withBuffer (List.replicate 20 0x11) 18).length ≤ 18 :=
  ⟨⟨⟨rfl, by decide⟩, by decide⟩, by decide⟩

theorem witness_EmptyPayload :
    BlockReady (withBuffer (List.replicate 16 0x11) 16) ∧ (withBuffer (List.replicate 16 0x11) 16).length = 16 :=
  ⟨⟨⟨rfl, by decide⟩, by decide⟩, by decide⟩

/-- The block of V-B6 before OBFUSCATE. -/
theorem witness_CorruptionMayGoUnnoticed :
    BlockReady (withBuffer (List.replicate 16 0 ++ [0x7E, 0x5D]) 18) ∧
      (withBuffer (List.replicate 16 0 ++ [0x7E, 0x5D]) 18).length = 18 ∧
      (withBuffer (List.replicate 16 0 ++ [0x7E, 0x5D]) 18).mem.read 16 = 0x7E ∧
      (withBuffer (List.replicate 16 0 ++ [0x7E, 0x5D]) 18).mem.read 17 = 0x5D :=
  ⟨⟨⟨rfl, by decide⟩, by decide⟩, by decide, by decide, by decide⟩

/-- Offset 16, the only payload byte, and offset 32 of a longer block. -/
theorem witness_SlotZeroCorruptionIsNoticed :
    BlockReady (withBuffer (List.replicate 17 0x11) 17) ∧ (16 : Nat) < (withBuffer (List.replicate 17 0x11) 17).length ∧
      BlockReady (withBuffer (List.replicate 33 0x11) 33) ∧ (32 : Nat) < (withBuffer (List.replicate 33 0x11) 33).length ∧
      16 % 16 = 0 ∧ 32 % 16 = 0 :=
  ⟨⟨⟨rfl, by decide⟩, by decide⟩, by decide, ⟨⟨rfl, by decide⟩, by decide⟩, by decide, by decide, by decide⟩

/-- OBFUSCATE produced a byte at offset 16 that differs from 0 or from 1, so a corrupting value exists. -/
theorem witness_SlotZero_value (x : Byte) : (0 : Byte) ≠ x ∨ (1 : Byte) ≠ x := by
  by_cases h : (0 : Byte) = x
  · subst h
    exact Or.inr (by decide)
  · exact Or.inl h

theorem witness_ShorterRecoverGivesPrefix :
    BlockReady (withBuffer (List.replicate 32 0x11) 32) ∧ 16 ≤ (16 : Word).toNat ∧
      (17 : Word).toNat ≤ (withBuffer (List.replicate 32 0x11) 32).length :=
  ⟨⟨⟨rfl, by decide⟩, by decide⟩, by decide, by decide⟩

/-- Two states that differ in every working register, in earlier results, in the reference and beyond `LEN`; DIGEST completes
in the first. -/
theorem witness_OutcomeDependsOnOperandsAndBuffer :
    let s := withBuffer [1, 2, 3] 2
    let s' : State := { withBuffer [1, 2, 4, 5] 2 with k := 7, idx := 9, cnt := 3, buf := 8, res := 5, err := 3, dout := 6 }
    s'.bufv = s.bufv ∧ s'.len = s.len ∧ s'.length ≤ s'.extent ∧
      (∀ o, o < s.length → s'.mem.read o = s.mem.read o) ∧ (∃ t, exec .digest s = .next t ∧ t.err = 0) ∧
      (∃ t, exec (.recb 1 2) s = .next t) := by
  refine ⟨rfl, rfl, by decide, ?_, ⟨_, rfl, rfl⟩, ⟨_, rfl⟩⟩
  intro o ho
  have h : o < 2 := ho
  obtain rfl | rfl : o = 0 ∨ o = 1 := by omega
  · decide
  · decide

theorem witness_MissingBufferFails :
    State.reset.bufv = false ∧ ∃ t, exec .obfuscate State.reset = .next t ∧ hostReadStatus t = -1 :=
  ⟨rfl, State.reset.fail (.missingBuffer (.block .obfuscate)), rfl, by decide⟩

/-- `LEN = 0` and `LEN = 15`, the buffer covering it. -/
theorem witness_UndersizedBlockFails :
    ((withBuffer [] 0).bufv = true ∧ (withBuffer [] 0).length < 16 ∧ (withBuffer [] 0).length ≤ (withBuffer [] 0).extent) ∧
      (withBuffer (List.replicate 16 0x11) 15).bufv = true ∧ (withBuffer (List.replicate 16 0x11) 15).length < 16 :=
  ⟨⟨rfl, by decide, by decide⟩, rfl, by decide⟩

/-- A failure of each kind. -/
theorem witness_FailedOperationChangesNothingElse :
    (∃ t, issue 0 State.reset = .next t ∧ t.err ≠ 0) ∧ (∃ t, issue 3 State.reset = .next t ∧ t.err ≠ 0) ∧
      ∃ t, issue 5 (withBuffer [] 0) = .next t ∧ t.err ≠ 0 := by
  refine ⟨⟨_, issue_error (e := .illegalOp) _ (by decide), by decide⟩, ?_, ?_⟩
  · rw [issue_ok (i := .digest) _ (by decide)]
    exact ⟨State.reset.fail (.missingBuffer .digest), rfl, by decide⟩
  · rw [issue_ok (i := .obfuscate) _ (by decide)]
    exact ⟨(withBuffer [] 0).fail .undersizedBlock, rfl, by decide⟩

/-- Each line of the table of return values is reached. -/
theorem witness_ReturnValueTable :
    (∃ t, issue 0x00241001 State.reset = .next t ∧ t.err = 0) ∧ (∃ t, issue 3 State.reset = .next t ∧ t.err = 1) ∧
      (∃ t, issue 5 (withBuffer [] 0) = .next t ∧ t.err = 2) ∧ ∃ t, issue 7 State.reset = .next t ∧ t.err = 3 := by
  refine ⟨?_, ?_, ?_, ⟨_, issue_error (e := .illegalOp) _ (by decide), by decide⟩⟩
  · rw [issue_ok (i := .recb 0x10 0x24) _ (by decide)]
    exact ⟨_, rfl, rfl⟩
  · rw [issue_ok (i := .digest) _ (by decide)]
    exact ⟨State.reset.fail (.missingBuffer .digest), rfl, by decide⟩
  · rw [issue_ok (i := .obfuscate) _ (by decide)]
    exact ⟨(withBuffer [] 0).fail .undersizedBlock, rfl, by decide⟩

/-- A duty broken by one byte. -/
theorem witness_BrokenExtentDutyIsRefused :
    (withBuffer (List.replicate 15 0x11) 16).bufv = true ∧
      (withBuffer (List.replicate 15 0x11) 16).extent < (withBuffer (List.replicate 15 0x11) 16).length ∧
      16 ≤ (withBuffer (List.replicate 15 0x11) 16).length := ⟨rfl, by decide, by decide⟩

/-- A RECB, an OBFB, a DIGEST that completes, one that fails, and an illegal word. -/
theorem witness_DoutAndDgHaveOneWriter :
    ((∃ t, issue 0x00241001 State.reset = .next t) ∧ decode 0x00241001 = .ok (.recb 0x10 0x24)) ∧
      ((∃ t, issue 0x00001002 State.reset = .next t) ∧ decode 0x00001002 = .ok (.obfb 0x10 0)) ∧
      (decode 3 = .ok .digest ∧ (∃ t, issue 3 (withBuffer [] 0) = .next t ∧ t.err = 0) ∧
        ∃ t, issue 3 State.reset = .next t ∧ t.err ≠ 0) ∧
      ∃ t, issue 0 State.reset = .next t := by
  refine ⟨⟨?_, by decide⟩, ⟨?_, by decide⟩, ⟨by decide, ?_, ?_⟩, ⟨_, issue_error (e := .illegalOp) _ (by decide)⟩⟩
  · rw [issue_ok (i := .recb 0x10 0x24) _ (by decide)]
    exact ⟨_, rfl⟩
  · rw [issue_ok (i := .obfb 0x10 0) _ (by decide)]
    exact ⟨_, rfl⟩
  · rw [issue_ok (i := .digest) _ (by decide)]
    exact ⟨_, rfl, rfl⟩
  · rw [issue_ok (i := .digest) _ (by decide)]
    exact ⟨State.reset.fail (.missingBuffer .digest), rfl, by decide⟩

/-- What the clauses of StepsFollowTheTable ask beside the phase: a missing buffer, a block too short, a block that is ready,
`IDX` below, at and above `LEN`, the first and the last `j`. -/
theorem witness_StepsFollowTheTable :
    ({ State.reset with phase := .check .digest } : State).bufv = false ∧
      ({ withBuffer [] 0 with phase := .check (.block .recover) } : State).length < 16 ∧
      SpanReady { withBuffer [] 0 with phase := .check .digest } ∧
      BlockReady { withBuffer (List.replicate 16 0x11) 16 with phase := .check (.block .obfuscate) } ∧
      (let s : State := { withBuffer (List.replicate 17 0x11) 17 with phase := .xform .recover, idx := 16 };
        s.idx.toNat < s.length ∧ s.length ≤ s.extent ∧ 16 ≤ s.extent) ∧
      (let s : State := { withBuffer (List.replicate 17 0x11) 17 with phase := .sum .digest, idx := 17 };
        s.length ≤ s.idx.toNat) ∧
      Phase.fix .digest ((0 : Fin 15).val + 1) = .fix .digest 1 ∧ Phase.fix .digest ((14 : Fin 15).val + 1) = .fix .digest 15 ∧
      Phase.cmp (0 : Fin 16).val = .cmp 0 ∧ Phase.hdr (15 : Fin 16).val = .hdr 15 :=
  ⟨rfl, by decide, ⟨rfl, by decide⟩, ⟨⟨rfl, by decide⟩, by decide⟩, ⟨by decide, by decide, by decide⟩, by decide, rfl, rfl,
    rfl, rfl⟩

theorem witness_OperationsKeepOperands :
    ∃ t, exec (.obfb 1 2) State.reset = .next t := ⟨_, rfl⟩

/-- The host about to write DIGEST's word over an empty span, and over a buffer one byte short. -/
theorem witness_StepLevelGivesOperationLevel :
    ({ withBuffer [] 0 with host := [.writeCmd 3] } : State).phase = .idle ∧
      (∃ t, step { withBuffer [] 0 with host := [.writeCmd 3] } = .next t) ∧
      step { withBuffer [] 1 with host := [.writeCmd 3] } = .refused .hostDutyExtent := by
  refine ⟨rfl, ?_, ?_⟩
  · rw [step_writeCmd rfl rfl, issue_ok (i := .digest) _ (by decide)]
    exact ⟨_, rfl⟩
  · rw [step_writeCmd rfl rfl, issue_ok (i := .digest) _ (by decide)]
    rfl

theorem witness_StepCountIsLinear :
    (let s : State := { withBuffer (List.replicate 16 0x11) 16 with host := [.writeCmdBySteps (blockWord .recover)] };
      BlockReady s ∧ s.phase = .idle ∧ s.host = [.writeCmdBySteps (blockWord .recover)]) ∧
    let s : State := { withBuffer (List.replicate 17 0x11) 17 with host := [.writeCmdBySteps (blockWord .obfuscate)] };
      BlockReady s ∧ s.phase = .idle ∧ s.host = [.writeCmdBySteps (blockWord .obfuscate)] :=
  ⟨⟨⟨⟨rfl, by decide⟩, by decide⟩, rfl, rfl⟩, ⟨⟨rfl, by decide⟩, by decide⟩, rfl, rfl⟩

/-- The invariant of a state with a buffer and the results of reset, in a phase that fits. -/
theorem machineInv_withBuffer (bytes : List Byte) (len : Word) (p : Phase)
    (h : SequencerFits { withBuffer bytes len with phase := p }) : MachineInv { withBuffer bytes len with phase := p } where
  memWf := Memory.wf_ofBytes 0 bytes
  memInside c hc := by simpa [withBuffer] using (Memory.mem_ofBytes hc).2.1
  outcome := Or.inl ⟨rfl, Nat.zero_le 16⟩
  digest := Or.inl rfl
  sequencer := h

/-- An operation at its check, the invariant with it. -/
theorem witness_EveryOperationEnds :
    MachineInv { withBuffer (List.replicate 16 0x11) 16 with phase := .check (.block .recover) } ∧
      (withBuffer (List.replicate 16 0x11) 16).length ≤ (withBuffer (List.replicate 16 0x11) 16).extent :=
  ⟨machineInv_withBuffer _ _ _ trivial, by decide⟩

/-- Steps in progress: a check that fails, the last header byte. -/
theorem witness_StepsInProgressHideTheirResults :
    (∃ t, step { State.reset with phase := .check .digest } = .next t) ∧
      ∃ t, step { withBuffer (List.replicate 16 0x11) 16 with phase := .hdr 15 } = .next t ∧ t.phase ≠ .idle :=
  ⟨⟨_, (step_check rfl).trans (spanOperation_missing _ rfl)⟩, ⟨_, step_hdr_byte rfl (by decide) (by decide), by simp⟩⟩

/-- A header step and a payload step from states of the invariant. -/
theorem witness_StepsInProgressStayInBlock :
    (MachineInv { withBuffer (List.replicate 16 0x11) 16 with phase := .hdr 15 } ∧
        ∃ t, step { withBuffer (List.replicate 16 0x11) 16 with phase := .hdr 15 } = .next t) ∧
      MachineInv { withBuffer (List.replicate 16 0x11) 16 with phase := .seed .recover } ∧
        ∃ t, step { withBuffer (List.replicate 16 0x11) 16 with phase := .seed .recover } = .next t := by
  refine ⟨⟨machineInv_withBuffer _ _ _ ?_, _, step_hdr_byte rfl (by decide) (by decide)⟩,
    machineInv_withBuffer _ _ _ ?_, _, step_seed rfl (by decide)⟩
  · exact ⟨⟨rfl, by decide, by decide⟩, by decide⟩
  · exact ⟨rfl, by decide, by decide⟩

/-- Each of the host's writes as the next move. -/
theorem witness_HostWritesOnlyTheirTarget :
    (aboutTo (.writeBufv true)).phase = .idle ∧ (aboutTo (.writeBufv true)).host = [.writeBufv true] ∧
      (aboutTo (.writeLen 16)).host = [.writeLen 16] ∧ (aboutTo (.writeBuf 1 [2, 3])).host = [.writeBuf 1 [2, 3]] ∧
      ({ withBuffer [1, 2] 2 with host := [.writeByte 1 9] } : State).host = [.writeByte 1 9] ∧
      (1 : Nat) < (withBuffer [1, 2] 2).extent := ⟨rfl, rfl, rfl, rfl, rfl, by decide⟩

/-- The first offset that does not exist. -/
theorem witness_WriteBeyondExtentFaults :
    ({ withBuffer [1, 2] 2 with host := [.writeByte 2 9] } : State).phase = .idle ∧
      ({ withBuffer [1, 2] 2 with host := [.writeByte 2 9] } : State).host = [.writeByte 2 9] ∧
      (withBuffer [1, 2] 2).extent ≤ 2 :=
  ⟨rfl, rfl, by decide⟩

/-- Reset in `IDLE`, and a reset the host may not yet make. -/
theorem witness_ResetKeepsTheBuffer :
    ({ withBuffer [1, 2] 2 with host := [.reset] } : State).phase = .idle ∧
      ({ withBuffer [1, 2] 2 with host := [.reset] } : State).host = [.reset] ∧
      ∃ t, step { State.reset with phase := .check .digest, host := [.reset] } = .next t :=
  ⟨rfl, rfl, _, (step_check rfl).trans (spanOperation_missing _ rfl)⟩

/-- Each word of the statement, placed: the step gives a next state. -/
theorem witness_FirstOperationAfterReset :
    failureAfter 0 (step (State.reset.withFetchWord 32 3)) = some (0xFFFFFFFF, 1, []) ∧
      failureAfter 0 (step (State.reset.withFetchWord 32 4)) = some (0xFFFFFFFF, 1, []) ∧
      failureAfter 0 (step (State.reset.withFetchWord 32 5)) = some (0xFFFFFFFF, 1, []) := by decide

theorem witness_IdleHolds : State.reset.phase = .idle ∧ State.reset.host = [] := ⟨rfl, rfl⟩

/-- From reset with the word of DIGEST placed: the invariant holds and the step gives a next state. -/
theorem witness_StepKeepsInv :
    MachineInv (withBuffer [1, 2] 2) ∧ ∃ t, step (withBuffer [1, 2] 2) = .next t :=
  ⟨machineInv_withBuffer [1, 2] 2 .idle trivial, _, step_idle rfl⟩

/-- A dutiful host with a command to make, an operation at its check, and, over a buffer that does not cover `LEN`, a byte
operation and an illegal word, which carry no duty. -/
theorem witness_DutifulStepsNeverStop :
    (MachineInv (withBuffer [1, 2] 2) ∧ NextMoveDutiful { withBuffer [1, 2] 2 with host := [.writeCmd 3] } ∧
        NextMoveDutiful { withBuffer [1, 2] 2 with host := [.writeByte 1 9] } ∧
        NextMoveDutiful { withBuffer [1, 2] 3 with host := [.writeCmd 0x00241001] } ∧
        NextMoveDutiful { withBuffer [1, 2] 3 with host := [.writeCmdBySteps 7] }) ∧
      MachineInv { withBuffer [1, 2] 2 with phase := .check .digest } ∧
        (withBuffer [1, 2] 2).length ≤ (withBuffer [1, 2] 2).extent :=
  ⟨⟨machineInv_withBuffer [1, 2] 2 .idle trivial, fun _ _ => by decide, by show (1 : Nat) < 2; decide,
    fun h => absurd h (by decide), fun h => absurd h (by decide)⟩,
    machineInv_withBuffer [1, 2] 2 (.check .digest) trivial, by decide⟩

end Sys2Proof.Tests
end

/-! A whole span operation at the step level, and the two levels of spec/00_scope.md R9 compared. -/

namespace Sys2Proof.Machine

/-! ## A span operation from the step after its check

The parts of an operation are chained by `BusyRun.append`. `dsimp only` takes the fields out of each intermediate state, so that
two states are compared field by field and no digest is unfolded. -/

theorem accumulate_add_16 (a : Slots) (i : Nat) (bs : List Byte) : accumulate a (i + 16) bs = accumulate a i bs := by
  induction bs generalizing a i with
  | nil => rfl
  | cons b bs ih => rw [accumulate, accumulate, addSlot_add_16, Nat.add_right_comm, ih]

/-- Counting the summed bytes from an operation's first offset, 0 or 16, gives the slots counting from 0 gives (R86). -/
theorem accumulate_first (op : SpanOp) (a : Slots) (bs : List Byte) : accumulate a op.first bs = accumulate a 0 bs := by
  cases op with
  | digest => rfl
  | block d => exact accumulate_add_16 a 0 bs

/-- The number of steps of a run, written otherwise. -/
theorem BusyRun.of_count {n m : Nat} {s t : State} (h : BusyRun n s t) (e : n = m) : BusyRun m s t := e ▸ h

/-- `SUMINIT`, `SUM` and `FIX` leave the digest of the operation's span in `ACC` (R88). -/
theorem busy_digestOfSpan {op : SpanOp} {s : State} (hp : s.phase = .sumInit op) (hl : op.first ≤ s.length)
    (he : s.length ≤ s.extent) :
    BusyRun (s.length - op.first + 18) s
      (seqAfterFix op { s with acc := digest (spanBytes op s.mem s.length), idx := s.len }) := by
  have hsum := (busy_sumInit hp hl he).append (busy_decollide rfl)
  rw [← seqAfterFix_phase op _ (.fix op 1), digest, ← accumulate_first op]
  dsimp only at hsum ⊢
  exact hsum

/-- `CMP`: the number of differing header bytes in `CNT` (R96, R102). -/
theorem busy_compare {s : State} (hp : s.phase = .cmp 0) (hc : s.cnt = 0) (he : 16 ≤ s.extent) :
    BusyRun 17 s
      { s with cnt := BitVec.ofNat 5 (mismatchCount s.acc s.mem), phase := .done (.block .recover) } := by
  have hcmp := busy_cmp 16 0 hp rfl he
  rw [hc, List.drop_zero, BitVec.ofNat_eq_ofNat, BitVec.zero_add] at hcmp
  exact hcmp

/-- `HDR`: the digest over the header (R97). -/
theorem busy_header {s : State} (hp : s.phase = .hdr 0) (he : 16 ≤ s.extent) :
    BusyRun 17 s { s with mem := writeHeader s.acc s.mem, phase := .seed .obfuscate } := busy_hdr 16 0 hp rfl he

/-- `DONE`, the last step of each span operation (R99). -/
theorem busy_done {op : SpanOp} {s t : State} (hp : s.phase = .done op) (h : seqDone op s = .next t) : BusyRun 1 s t :=
  .one (step_of_phase hp (by simp)).1 ((step_done hp).trans h)

/-- DIGEST from its check on. -/
theorem busy_digest {s : State} (hp : s.phase = .sumInit .digest) (he : s.length ≤ s.extent) :
    BusyRun (s.length + 19) s (s.endDigest (digest (spanBytes .digest s.mem s.length))) := by
  have hsum := busy_digestOfSpan hp (Nat.zero_le _) he
  dsimp only [seqAfterFix] at hsum
  have hdone := hsum.append (busy_done (op := .digest) rfl rfl)
  dsimp only [State.endDigest] at hdone ⊢
  exact hdone

/-- RECOVER from its check on: the payload is transformed, then its digest compared with the header. -/
theorem busy_recover {s : State} (hp : s.phase = .seed .recover) (hl : 16 ≤ s.length) (he : s.length ≤ s.extent) :
    BusyRun (2 * (s.length - 16) + 38) s
      ({ s with mem := recoveredMemory Config.tables s.mem s.length }.endRecover
        (BitVec.ofNat 5 (recoveredCount (recoveredMemory Config.tables s.mem s.length) s.length))) := by
  obtain ⟨k, hseed⟩ := busy_seed hp hl he
  have hsum := hseed.append (busy_digestOfSpan (op := .block .recover) rfl hl he)
  dsimp only [seqAfterFix] at hsum
  have hcmp := hsum.append (busy_compare rfl rfl (Nat.le_trans hl he))
  dsimp only at hcmp
  have hdone := hcmp.append (busy_done (op := .block .recover) rfl rfl)
  dsimp only [State.endRecover] at hdone ⊢
  exact hdone.of_count (by show s.length - 16 + 2 + (s.length - 16 + 18) + 17 + 1 = 2 * (s.length - 16) + 38; omega)

/-- OBFUSCATE from its check on: the payload's digest is written over the header, then the payload transformed. -/
theorem busy_obfuscate {s : State} (hp : s.phase = .sumInit (.block .obfuscate)) (hl : 16 ≤ s.length)
    (he : s.length ≤ s.extent) :
    BusyRun (2 * (s.length - 16) + 38) s
      ({ s with mem := obfuscatedMemory Config.tables s.mem s.length }.endObfuscate) := by
  have hsum := busy_digestOfSpan hp hl he
  dsimp only [seqAfterFix] at hsum
  have hhdr := hsum.append (busy_header rfl (Nat.le_trans hl he))
  dsimp only at hhdr
  obtain ⟨k, hseed⟩ := busy_seed (d := .obfuscate) (s := { s with
    acc := digest (spanBytes (.block .obfuscate) s.mem s.length), idx := s.len
    mem := writeHeader (payloadDigest s.mem s.length) s.mem, phase := .seed .obfuscate })
    rfl (show 16 ≤ s.len.toNat from hl) (show s.len.toNat ≤ s.extent from he)
  have hxform := hhdr.append hseed
  have hdone := hxform.append (busy_done (op := .block .obfuscate) rfl rfl)
  dsimp only [State.endObfuscate, State.length] at hdone ⊢
  exact hdone.of_count (by show s.length - 16 + 18 + 17 + (s.length - 16 + 2) + 1 = 2 * (s.length - 16) + 38; omega)

/-! ## The operation level's end of a span operation -/

/-- The instruction of a span operation. -/
def spanInstr : SpanOp → Instr
  | .digest => .digest
  | .block .recover => .recover
  | .block .obfuscate => .obfuscate

/-- The state in which a span operation completes (R89, R96, R97). -/
def completed (op : SpanOp) (s : State) : State :=
  match op with
  | .digest => s.endDigest (digest (spanBytes .digest s.mem s.length))
  | .block .recover => { s with mem := recoveredMemory Config.tables s.mem s.length }.endRecover
      (BitVec.ofNat 5 (recoveredCount (recoveredMemory Config.tables s.mem s.length) s.length))
  | .block .obfuscate => { s with mem := obfuscatedMemory Config.tables s.mem s.length }.endObfuscate

theorem exec_spanInstr (op : SpanOp) (s : State) : exec (spanInstr op) s = spanOperation op s (completed op s) := by
  obtain _ | _ | _ := op <;> rfl

theorem issueBySteps_spanInstr {w : Word} {op : SpanOp} (s : State) (h : decode w = .ok (spanInstr op)) :
    issueBySteps w s = .next (seqStart op s) := by
  unfold issueBySteps
  rw [h]
  obtain _ | _ | _ := op <;> rfl

/-- A write of `CMD` is the same at both levels, unless it starts a span operation (R126). -/
theorem issueBySteps_cases (w : Word) (s : State) :
    issueBySteps w s = issue w s ∨
    ∃ op : SpanOp, issue w s = spanOperation op s (completed op s) ∧ issueBySteps w s = .next (seqStart op s) := by
  have span (op : SpanOp) (h : decode w = .ok (spanInstr op)) :
      ∃ op : SpanOp, issue w s = spanOperation op s (completed op s) ∧ issueBySteps w s = .next (seqStart op s) :=
    ⟨op, (issue_ok s h).trans (exec_spanInstr op s), issueBySteps_spanInstr s h⟩
  cases h : decode w with
  | error e => exact .inl (by rw [issue_error s h, issueBySteps, h])
  | ok i =>
    cases i with
    | recb key data => exact .inl (by rw [issue_ok s h, issueBySteps, h])
    | obfb key data => exact .inl (by rw [issue_ok s h, issueBySteps, h])
    | digest => exact .inr (span .digest h)
    | recover => exact .inr (span (.block .recover) h)
    | obfuscate => exact .inr (span (.block .obfuscate) h)

/-! ## The two levels agree -/

/-- The end of a span operation does not depend on the phase. -/
theorem completed_phase (op : SpanOp) (s : State) (p : Phase) : completed op { s with phase := p } = completed op s := by
  obtain _ | _ | _ := op <;> rfl

/-- A span operation whose checks passed runs to the operation level's end. -/
theorem busy_completed (op : SpanOp) {s : State} (hp : s.phase = afterCheck op) (hl : op.first ≤ s.length)
    (he : s.length ≤ s.extent) : ∃ n, BusyRun n s (completed op s) := by
  obtain _ | _ | _ := op
  · exact ⟨_, busy_digest hp he⟩
  · exact ⟨_, busy_recover hp hl he⟩
  · exact ⟨_, busy_obfuscate hp hl he⟩

/-- An operation that fails an entry check fails whatever its body (R116). -/
theorem spanOperation_fails {op : SpanOp} {s : State} {f : Failure} (body : State) (h : entryFailure op s = some f) :
    spanOperation op s body = .next (s.fail f) := by
  simp only [spanOperation, h]

/-- An operation that is refused is refused whatever its body (R37). -/
theorem spanOperation_refuses {op : SpanOp} {s body : State} {r : Refusal} (body' : State)
    (h : spanOperation op s body = .refused r) : spanOperation op s body' = .refused r := by
  cases hf : entryFailure op s with
  | some f =>
    rw [spanOperation_fails body hf] at h
    cases h
  | none =>
    cases hc : s.extentCovers <;> simp only [spanOperation, hf, hc] at h ⊢
    · exact h
    · cases h

/-- `CHECK` fails and refuses as the operation level does, and otherwise leads to the phase after it. -/
theorem step_seqStart (op : SpanOp) (s : State) :
    step (seqStart op s) = spanOperation op s { s with phase := afterCheck op } := step_check rfl

/-- A span operation that ends at the operation level ends at the step level in the same state. -/
theorem busy_seqStart {op : SpanOp} {s t : State} (h : spanOperation op s (completed op s) = .next t) :
    ∃ n, BusyRun n (seqStart op s) t := by
  have busy : (seqStart op s).phase ≠ .idle := fun h => nomatch h
  have hcheck := step_seqStart op s
  rcases spanOperation_cases op s (completed op s) with ⟨f, hf, hs⟩ | ⟨hv, hl, he, hs⟩ | ⟨hv, hl, he, hs⟩
  · rw [hs] at h
    cases h
    rw [spanOperation_fails _ hf] at hcheck
    exact ⟨1, .one busy hcheck⟩
  · rw [hs] at h
    cases h
  · rw [hs] at h
    cases h
    rw [spanOperation_completes _ hv hl he] at hcheck
    obtain ⟨n, hrun⟩ := busy_completed op (s := { s with phase := afterCheck op }) rfl hl he
    rw [completed_phase] at hrun
    exact ⟨n + 1, .next busy hcheck hrun⟩

/-- A span operation the operation level refuses is refused by `CHECK` (R37). -/
theorem step_seqStart_refused {op : SpanOp} {s body : State} {r : Refusal} (h : spanOperation op s body = .refused r) :
    step (seqStart op s) = .refused r := (step_seqStart op s).trans (spanOperation_refuses _ h)

/-- A run of the CORE behind a host move, in terms of the host's `run`. -/
theorem run_of_busyRun {n : Nat} {s u t : State} (hs : step s = .next u) (h : BusyRun n u t) :
    Host.Core.run core (n + 1) s = .next t ∧
      ∀ m, 0 < m → m < n + 1 → ∃ v : State, Host.Core.run core m s = .next v ∧ v.phase ≠ .idle := by
  obtain ⟨hend, hbusy⟩ := h.run
  refine ⟨(run_succ n hs).trans hend, fun m h0 hm => ?_⟩
  cases m with
  | zero => exact absurd h0 (Nat.lt_irrefl 0)
  | succ m =>
    rw [run_succ m hs]
    exact hbusy m (Nat.lt_of_succ_lt_succ hm)

/-- A write of `CMD` that ends at the operation level ends at the step level in the same state, after steps of the CORE
only. -/
theorem issueBySteps_of_issue_next {w : Word} {s t : State} (h : issue w s = .next t) :
    ∃ (n : Nat) (u : State), issueBySteps w s = .next u ∧ BusyRun n u t := by
  obtain hsame | ⟨op, hop, hstart⟩ := issueBySteps_cases w s
  · exact ⟨0, t, hsame.trans h, .refl t⟩
  · obtain ⟨n, hrun⟩ := busy_seqStart (hop.symm.trans h)
    exact ⟨n, _, hstart, hrun⟩

/-- A write of `CMD` the operation level refuses is refused at the step level. -/
theorem run_refused_of_issue_refused {w : Word} {s t : State} {r : Refusal} (hs : step s = issueBySteps w t)
    (h : issue w t = .refused r) : ∃ n, Host.Core.run core n s = .refused r := by
  obtain hsame | ⟨op, hop, hstart⟩ := issueBySteps_cases w t
  · exact ⟨1, run_succ_refused 0 (hs.trans (hsame.trans h))⟩
  · exact ⟨2, (run_succ 1 (hs.trans hstart)).trans (run_succ_refused 0 (step_seqStart_refused (hop.symm.trans h)))⟩

/-- Settles O39: each loop of the sequencer computes what the operation level's function does, and both levels share the
entry checks and the end of the operation. -/
theorem stepLevelGivesOperationLevel : Obligations.StepLevelGivesOperationLevel := by
  intro s w rest hp hh
  have hop : step s = issue w { s with host := rest } := step_writeCmd hp hh
  have hsteps : step { s with host := .writeCmdBySteps w :: rest } = issueBySteps w { s with host := rest } :=
    step_move (s := { s with host := .writeCmdBySteps w :: rest }) hp rfl
  constructor
  · intro t ht
    obtain ⟨n, u, hu, hrun⟩ := issueBySteps_of_issue_next (hop.symm.trans ht)
    exact ⟨n + 1, Nat.succ_pos n, run_of_busyRun (hsteps.trans hu) hrun⟩
  · intro r hr
    exact run_refused_of_issue_refused hsteps (hop.symm.trans hr)

end Sys2Proof.Machine

/-! What one operation, one step of the sequencer and one host move can do, said once, and the invariant of the machine
(spec/10_state.md). -/

namespace Sys2Proof.Machine

/-! ## What an operation can end in -/

/-- A span operation that ends either failed an entry check or passed them all and did its body (R95, R116). -/
theorem spanOperation_next {op : SpanOp} {s body t : State} (h : spanOperation op s body = .next t) :
    (∃ f, entryFailure op s = some f ∧ t = s.fail f) ∨ (Passed op s ∧ t = body) := by
  rcases spanOperation_cases op s body with ⟨f, hf, hs⟩ | ⟨-, -, -, hs⟩ | ⟨hv, hl, he, hs⟩ <;> rw [hs] at h <;> cases h
  · exact .inl ⟨f, hf, rfl⟩
  · exact .inr ⟨⟨hv, he, hl⟩, rfl⟩

/-- The ends of an operation: a byte operation writes its byte, a span operation fails an entry check or completes. -/
theorem exec_next {i : Instr} {s t : State} (h : exec i s = .next t) :
    (∃ key data, i = .recb key data ∧ t = s.endByte (recb Config.tables key data)) ∨
    (∃ key data, i = .obfb key data ∧ t = s.endByte (obfb Config.tables key data)) ∨
    (∃ op f, i = spanInstr op ∧ entryFailure op s = some f ∧ t = s.fail f) ∨
    (∃ op, i = spanInstr op ∧ Passed op s ∧ t = completed op s) := by
  have span (op : SpanOp) (hi : i = spanInstr op) :
      (∃ op f, i = spanInstr op ∧ entryFailure op s = some f ∧ t = s.fail f) ∨
      (∃ op, i = spanInstr op ∧ Passed op s ∧ t = completed op s) := by
    rw [hi, exec_spanInstr] at h
    rcases spanOperation_next h with ⟨f, hf, ht⟩ | ⟨hpass, ht⟩
    · exact .inl ⟨op, f, hi, hf, ht⟩
    · exact .inr ⟨op, hi, hpass, ht⟩
  cases i with
  | recb key data => cases h; exact .inl ⟨key, data, rfl, rfl⟩
  | obfb key data => cases h; exact .inr (.inl ⟨key, data, rfl, rfl⟩)
  | digest => exact .inr (.inr (span .digest rfl))
  | recover => exact .inr (.inr (span (.block .recover) rfl))
  | obfuscate => exact .inr (.inr (span (.block .obfuscate) rfl))

/-- A write of `CMD` that ends fails as an illegal word or ends as the operation it selects (R15, R54). -/
theorem issue_next {w : Word} {s t : State} (h : issue w s = .next t) :
    (∃ e, decode w = .error e ∧ t = s.fail .illegalCommand) ∨ (∃ i, decode w = .ok i ∧ exec i s = .next t) := by
  cases hw : decode w with
  | error e =>
    rw [issue_error s hw] at h
    cases h
    exact .inl ⟨e, rfl, rfl⟩
  | ok i => exact .inr ⟨i, rfl, (issue_ok s hw).symm.trans h⟩

/-- The error code of a failure is not that of a completion (R19, R110). -/
theorem Failure.code_ne_zero (f : Failure) : f.code ≠ 0 := by
  cases f <;> exact fun h => nomatch h

/-- No span operation is a byte operation. -/
theorem spanInstr_ne_byte (op : SpanOp) (key data : Byte) :
    spanInstr op ≠ .recb key data ∧ spanInstr op ≠ .obfb key data := by
  obtain _ | _ | _ := op <;> exact ⟨nofun, nofun⟩

theorem spanInstr_injective {op op' : SpanOp} (h : spanInstr op = spanInstr op') : op = op' := by
  obtain _ | _ | _ := op <;> obtain _ | _ | _ := op' <;> cases h <;> rfl

/-! ## A completed span operation -/

@[simp] theorem completed_err (op : SpanOp) (s : State) : (completed op s).err = 0 := by
  obtain _ | _ | _ := op <;> rfl

@[simp] theorem completed_dout (op : SpanOp) (s : State) : (completed op s).dout = s.dout := by
  obtain _ | _ | _ := op <;> rfl

@[simp] theorem completed_dg_digest (s : State) :
    (completed .digest s).dg = digest (spanBytes .digest s.mem s.length) := by
  rw [completed, State.endDigest_dg]

@[simp] theorem completed_dg_block (d : Dir) (s : State) : (completed (.block d) s).dg = s.dg := by
  cases d <;> rfl

/-- RECOVER returns its mismatch count (R96, R102). -/
theorem completed_res_recover (s : State) :
    (completed (.block .recover) s).res.toNat =
      recoveredCount (recoveredMemory Config.tables s.mem s.length) s.length := by
  rw [recoveredCount, ← mismatchCount_result]
  rfl

/-- Every other completion returns 0 (R18). -/
theorem completed_res_zero {op : SpanOp} (s : State) (h : op ≠ .block .recover) : (completed op s).res = 0 := by
  obtain _ | _ | _ := op
  · rfl
  · exact absurd rfl h
  · rfl

/-- A completion returns at most 16 (R18). -/
theorem completed_res_le (op : SpanOp) (s : State) : (completed op s).res.toNat ≤ 16 := by
  by_cases h : op = .block .recover
  · rw [h, completed_res_recover]
    exact mismatchCount_le _ _
  · rw [completed_res_zero s h]
    exact Nat.zero_le 16

theorem completed_sameOperands (op : SpanOp) (s : State) : SameOperands s (completed op s) := by
  obtain _ | _ | _ := op <;> exact ⟨rfl, rfl, rfl, rfl, rfl⟩

/-! ## The de-collision pass leaves no equal neighbours (R87, R91) -/

/-- The slots below `j` differ from their left neighbours: what the pass has reached before step `j`. -/
def DistinctBelow (a : Slots) (j : Nat) : Prop := ∀ i : Fin 15, i.val + 1 < j → a[i.castSucc] ≠ a[i.succ]

theorem distinctBelow_one (a : Slots) : DistinctBelow a 1 := fun i hi => absurd hi (by omega)

theorem adjacentDistinct_of_distinctBelow {a : Slots} {j : Nat} (h : DistinctBelow a j) (hj : 16 ≤ j) :
    AdjacentDistinct a := fun i => h i (by omega)

/-- Step `j` of the pass makes slot `j` differ from slot `j - 1` and keeps the slots below. -/
theorem distinctBelow_fixSlot {a : Slots} {j : Nat} (h1 : 1 ≤ j) (h2 : j < 16) (h : DistinctBelow a j) :
    DistinctBelow (fixSlot a j) (j + 1) := by
  intro i hi
  by_cases hij : i.val + 1 = j
  · subst hij
    exact fixSlot_ne a h1 h2
  · have kept (k : Nat) (hk : k < j) : (fixSlot a j)[k] = a[k] := by
      rw [fixSlot_get a h1 h2 k (by omega), if_neg (by omega)]
    have hlt : i.val + 1 < j := by omega
    show (fixSlot a j)[i.val] ≠ (fixSlot a j)[i.val + 1]
    rw [kept i.val (by omega), kept (i.val + 1) hlt]
    exact h i hlt

theorem distinctBelow_decollideFrom {a : Slots} {j n : Nat} (h1 : 1 ≤ j) (h2 : j + n ≤ 16) (h : DistinctBelow a j) :
    DistinctBelow (decollideFrom a j n) (j + n) := by
  induction n generalizing a j with
  | zero => exact h
  | succ n ih =>
    rw [decollideFrom_succ, Nat.add_comm n 1, ← Nat.add_assoc]
    exact ih (by omega) (by omega) (distinctBelow_fixSlot h1 (by omega) h)

/-- A digest has no two equal adjacent bytes (R91). -/
theorem adjacentDistinct_digest (bs : List Byte) : AdjacentDistinct (digest bs) :=
  adjacentDistinct_of_distinctBelow (j := 1 + 15)
    (distinctBelow_decollideFrom (Nat.le_refl 1) (Nat.le_refl 16) (distinctBelow_one _)) (Nat.le_refl 16)

/-! ## Memory that fits the buffer (R23) -/

/-- The memory is in canonical form and lists only offsets below `n`: the invariant's two clauses about memory. -/
def Memory.Fits (m : Memory) (n : Nat) : Prop := m.wf ∧ ∀ c ∈ m, c.1 < n

theorem Memory.Fits.write {m : Memory} {n a : Nat} (h : m.Fits n) (ha : a < n) (v : Byte) : (m.write a v).Fits n :=
  ⟨wf_write h.1 a v, fun c hc => (mem_write hc).elim (fun hca => hca ▸ ha) (h.2 c)⟩

theorem Memory.fits_ofBytes (bs : List Byte) : (Memory.ofBytes 0 bs).Fits bs.length :=
  ⟨wf_ofBytes 0 bs, fun _ hc => Nat.zero_add bs.length ▸ (mem_ofBytes hc).2.1⟩

theorem Memory.Fits.xformPayload {m : Memory} {n L : Nat} (h : m.Fits n) (hL : L ≤ n) (T : Config.Tables) (d : Dir) :
    (xformPayload T d m L).Fits n := by
  refine ⟨xformLoop_wf T d _ _ _ h.1, fun c hc => ?_⟩
  rcases mem_xformLoop hc with ⟨hlo, hhi⟩ | hc
  · omega
  · exact h.2 c hc

theorem Memory.Fits.writeHeader {m : Memory} {n : Nat} (h : m.Fits n) (hn : 16 ≤ n) (d : Slots) :
    (writeHeader d m).Fits n :=
  ⟨writeHeaderFrom_wf d _ h.1, fun c hc => (mem_writeHeaderFrom hc).elim (fun hlt => by omega) (h.2 c)⟩

/-- A span operation that passed its checks leaves a memory that fits. -/
theorem completed_mem_fits {op : SpanOp} {s : State} (hpass : Passed op s) (h : s.mem.Fits s.extent) :
    (completed op s).mem.Fits s.extent := by
  obtain ⟨-, he, hl⟩ := hpass
  obtain _ | _ | _ := op
  · exact h
  · exact h.xformPayload he _ _
  · exact (h.writeHeader (Nat.le_trans hl he) _).xformPayload he _ _

/-! ## What one step of the sequencer can do -/

/-- The state in which `DONE` ends each operation (R99). -/
def seqEnd (op : SpanOp) (s : State) : State :=
  match op with
  | .digest => s.endDigest s.acc
  | .block .recover => s.endRecover s.cnt
  | .block .obfuscate => s.endObfuscate

theorem seqDone_eq (op : SpanOp) (s : State) : seqDone op s = .next (seqEnd op s) := by
  obtain _ | _ | _ := op <;> rfl

/-- The transitions of an operation in progress: the lines of R99's table, with the guard under which each is taken. -/
inductive CoreStep (s : State) : State → Prop where
  | checkFails {op : SpanOp} {f : Failure} : s.phase = .check op → entryFailure op s = some f → CoreStep s (s.fail f)
  | checkPasses {op : SpanOp} : s.phase = .check op → Passed op s → CoreStep s { s with phase := afterCheck op }
  | seed {d : Dir} : s.phase = .seed d → CoreStep s
      { s with k := s.mem.read Config.seedOffset, idx := BitVec.ofNat 32 Config.headerLen, phase := .xform d }
  | xformByte {d : Dir} : s.phase = .xform d → s.idx.toNat < s.length → s.idx.toNat < s.extent → CoreStep s
      { s with
        mem := s.mem.write s.idx.toNat (transformByte Config.tables d s.k (s.mem.read s.idx.toNat)).1
        k := (transformByte Config.tables d s.k (s.mem.read s.idx.toNat)).2, idx := s.idx + 1 }
  | xformEnd {d : Dir} : s.phase = .xform d → s.length ≤ s.idx.toNat → CoreStep s { s with phase := afterXform d }
  | sumInit {op : SpanOp} : s.phase = .sumInit op → CoreStep s
      { s with acc := Config.magic, idx := BitVec.ofNat 32 op.first, phase := .sum op }
  | sumByte {op : SpanOp} : s.phase = .sum op → s.idx.toNat < s.length → CoreStep s
      { s with acc := addSlot s.acc s.idx.toNat (s.mem.read s.idx.toNat), idx := s.idx + 1 }
  | sumEnd {op : SpanOp} : s.phase = .sum op → s.length ≤ s.idx.toNat → CoreStep s { s with phase := .fix op 1 }
  | fixSlot {op : SpanOp} {j : Nat} : s.phase = .fix op j → j < 16 → CoreStep s
      { s with acc := Machine.fixSlot s.acc j, phase := .fix op (j + 1) }
  | fixEnd {op : SpanOp} {j : Nat} : s.phase = .fix op j → 16 ≤ j → CoreStep s (seqAfterFix op s)
  | cmpByte {j : Nat} (hj : j < 16) : s.phase = .cmp j → CoreStep s
      { s with cnt := if s.acc[j] ≠ s.mem.read j then s.cnt + 1 else s.cnt, phase := .cmp (j + 1) }
  | cmpEnd {j : Nat} : s.phase = .cmp j → 16 ≤ j → CoreStep s { s with phase := .done (.block .recover) }
  | hdrByte {j : Nat} (hj : j < 16) : s.phase = .hdr j → j < s.extent → CoreStep s
      { s with mem := s.mem.write j s.acc[j], phase := .hdr (j + 1) }
  | hdrEnd {j : Nat} : s.phase = .hdr j → 16 ≤ j → CoreStep s { s with phase := .seed .obfuscate }
  | done {op : SpanOp} : s.phase = .done op → CoreStep s (seqEnd op s)

/-- A step of an operation in progress is one of those transitions (R99, R126). -/
theorem coreStep_of_step {s t : State} (hbusy : s.phase ≠ .idle) (h : step s = .next t) : CoreStep s t := by
  rw [step_busy hbusy, seqStep_of_phase] at h
  cases hp : s.phase with
  | idle => exact absurd hp hbusy
  | check op =>
    rw [hp] at h
    rcases spanOperation_next h with ⟨f, hf, rfl⟩ | ⟨hpass, rfl⟩
    · exact .checkFails hp hf
    · exact .checkPasses hp hpass
  | seed d =>
    rw [hp] at h
    obtain ⟨-, rfl⟩ := withByte_next h
    exact .seed hp
  | xform d =>
    rw [hp] at h
    simp only [seqXform] at h
    split at h
    · obtain ⟨he, rfl⟩ := withByte_next h
      exact .xformByte hp ‹_› he
    · cases h
      exact .xformEnd hp (by omega)
  | sumInit op =>
    rw [hp] at h
    cases h
    exact .sumInit hp
  | sum op =>
    rw [hp] at h
    simp only [seqSum] at h
    split at h
    · obtain ⟨-, rfl⟩ := withByte_next h
      exact .sumByte hp ‹_›
    · cases h
      exact .sumEnd hp (by omega)
  | fix op j =>
    rw [hp] at h
    simp only [seqFix] at h
    split at h <;> cases h
    · exact .fixSlot hp ‹_›
    · exact .fixEnd hp (by omega)
  | cmp j =>
    rw [hp] at h
    simp only [seqCmp] at h
    split at h
    · obtain ⟨-, rfl⟩ := withByte_next h
      exact .cmpByte ‹_› hp
    · cases h
      exact .cmpEnd hp (by omega)
  | hdr j =>
    rw [hp] at h
    simp only [seqHdr] at h
    split at h
    · split at h <;> cases h
      exact .hdrByte ‹_› hp ‹_›
    · cases h
      exact .hdrEnd hp (by omega)
  | done op =>
    simp only [hp, seqDone_eq] at h
    cases h
    exact .done hp

/-- No step in progress writes an operand or takes a host move (R16, R17, R41). -/
theorem CoreStep.sameOperands {s t : State} (h : CoreStep s t) : SameOperands s t := by
  cases h with
  | @fixEnd op => obtain _ | _ | _ := op <;> exact ⟨rfl, rfl, rfl, rfl, rfl⟩
  | @done op => obtain _ | _ | _ := op <;> exact ⟨rfl, rfl, rfl, rfl, rfl⟩
  | _ => exact ⟨rfl, rfl, rfl, rfl, rfl⟩

/-- Only the two steps that end an operation write results: a check that fails, and `DONE`. -/
theorem CoreStep.results {s t : State} (h : CoreStep s t) :
    SameResults s t ∨ (∃ f, t = s.fail f) ∨ ∃ op, s.phase = .done op ∧ t = seqEnd op s := by
  cases h with
  | checkFails => exact .inr (.inl ⟨_, rfl⟩)
  | done hp => exact .inr (.inr ⟨_, hp, rfl⟩)
  | @fixEnd op => obtain _ | _ | _ := op <;> exact .inl ⟨rfl, rfl, rfl, rfl⟩
  | _ => exact .inl ⟨rfl, rfl, rfl, rfl⟩

/-- A step in progress keeps the memory canonical and inside the buffer (R23). -/
theorem CoreStep.mem_fits {s t : State} (h : CoreStep s t) (hm : s.mem.Fits s.extent) : t.mem.Fits t.extent := by
  cases h with
  | xformByte _ _ he => exact hm.write he _
  | hdrByte _ _ he => exact hm.write he _
  | @fixEnd op => obtain _ | _ | _ := op <;> exact hm
  | @done op => obtain _ | _ | _ := op <;> exact hm
  | _ => exact hm

/-! ## The sequencer's part of the invariant (R99) -/

/-- In a known phase the sequencer's invariant is that phase's clause, which `SequencerFits` then computes to. -/
theorem SequencerFits.at_phase {s : State} {p : Phase} (h : SequencerFits s) (hp : s.phase = p) :
    SequencerFits { s with phase := p } := by
  subst hp
  exact h

theorem sequencerFits_of_idle {s : State} (hp : s.phase = .idle) : SequencerFits s := by
  simp only [SequencerFits, hp]

/-- A check that passed leads to a phase that fits. -/
theorem sequencerFits_afterCheck {op : SpanOp} {s : State} (h : Passed op s) :
    SequencerFits { s with phase := afterCheck op } := by
  obtain _ | _ | _ := op <;> exact h

theorem sequencerFits_afterXform {d : Dir} {s : State} (h : Passed (.block d) s) :
    SequencerFits { s with phase := afterXform d } := by
  cases d with
  | recover => exact h
  | obfuscate => exact trivial

/-- The finished pass leads to a phase that fits: DIGEST's slots have no equal neighbours, RECOVER begins to count at 0. -/
theorem sequencerFits_afterFix {op : SpanOp} {s : State} (h : Passed op s) (hacc : AdjacentDistinct s.acc) :
    SequencerFits (seqAfterFix op s) := by
  obtain _ | _ | _ := op
  · exact hacc
  · exact ⟨h, Nat.zero_le 16, Nat.le_refl 0⟩
  · exact ⟨h, Nat.zero_le 16⟩

/-- The count after comparing one more byte: at most one more, and no wrap below 16. -/
theorem cnt_le_succ {c : BitVec 5} {j : Nat} (hj : j < 16) (hc : c.toNat ≤ j) (P : Prop) [Decidable P] :
    (if P then c + 1 else c).toNat ≤ j + 1 := by
  split
  · rw [BitVec.toNat_add, show (1 : BitVec 5).toNat = 1 from rfl]
    omega
  · omega

/-- A step in progress leads to a state the sequencer can be in. -/
theorem CoreStep.sequencerFits {s t : State} (h : CoreStep s t) (hs : SequencerFits s) : SequencerFits t := by
  cases h with
  | checkFails => exact trivial
  | checkPasses _ hpass => exact sequencerFits_afterCheck hpass
  | @seed d hp =>
    have hpass : Passed (.block d) s := hs.at_phase hp
    exact ⟨hpass, Nat.le_refl 16, hpass.2.2⟩
  | @xformByte d hp hlt _ =>
    obtain ⟨hpass, hlo, -⟩ : Passed (.block d) s ∧ 16 ≤ s.idx.toNat ∧ _ := hs.at_phase hp
    have hi := idx_succ hlt
    have hnext : 16 ≤ (s.idx + 1).toNat ∧ (s.idx + 1).toNat ≤ s.length := by omega
    simp only [SequencerFits, hp]
    exact ⟨hpass, hnext⟩
  | @xformEnd d hp _ =>
    have hpass : Passed (.block d) s := (hs.at_phase hp).1
    exact sequencerFits_afterXform hpass
  | @sumInit op hp =>
    have hpass : Passed op s := hs.at_phase hp
    have hf : (BitVec.ofNat 32 op.first).toNat = op.first := by obtain _ | _ := op <;> rfl
    exact ⟨hpass, hf.ge, hf.le.trans hpass.2.2⟩
  | @sumByte op hp hlt =>
    obtain ⟨hpass, hlo, -⟩ : Passed op s ∧ op.first ≤ s.idx.toNat ∧ _ := hs.at_phase hp
    have hi := idx_succ hlt
    have hnext : op.first ≤ (s.idx + 1).toNat ∧ (s.idx + 1).toNat ≤ s.length := by omega
    simp only [SequencerFits, hp]
    exact ⟨hpass, hnext⟩
  | @sumEnd op hp _ =>
    have hpass : Passed op s := (hs.at_phase hp).1
    exact ⟨hpass, Nat.le_refl 1, by decide, distinctBelow_one s.acc⟩
  | @fixSlot op j hp hj =>
    obtain ⟨hpass, h1, -, hacc⟩ : Passed op s ∧ 1 ≤ j ∧ j ≤ 16 ∧ DistinctBelow s.acc j := hs.at_phase hp
    exact ⟨hpass, Nat.le_add_left 1 j, hj, distinctBelow_fixSlot h1 hj hacc⟩
  | @fixEnd op j hp hj =>
    obtain ⟨hpass, -, -, hacc⟩ : Passed op s ∧ 1 ≤ j ∧ j ≤ 16 ∧ DistinctBelow s.acc j := hs.at_phase hp
    exact sequencerFits_afterFix hpass (adjacentDistinct_of_distinctBelow hacc hj)
  | @cmpByte j hj hp =>
    obtain ⟨hpass, -, hcnt⟩ : Passed (.block .recover) s ∧ j ≤ 16 ∧ s.cnt.toNat ≤ j := hs.at_phase hp
    exact ⟨hpass, hj, cnt_le_succ hj hcnt _⟩
  | @cmpEnd j hp _ =>
    obtain ⟨-, hj, hcnt⟩ : Passed (.block .recover) s ∧ j ≤ 16 ∧ s.cnt.toNat ≤ j := hs.at_phase hp
    exact Nat.le_trans hcnt hj
  | @hdrByte j hj hp _ =>
    have hpass : Passed (.block .obfuscate) s := (hs.at_phase hp).1
    exact ⟨hpass, hj⟩
  | hdrEnd hp _ =>
    have hpass : Passed (.block .obfuscate) s := (hs.at_phase hp).1
    exact hpass
  | @done op _ => obtain _ | _ | _ := op <;> exact trivial

/-! ## The invariant, one lemma per way a step can end -/

theorem MachineInv.memFits {s : State} (h : MachineInv s) : s.mem.Fits s.extent := ⟨h.memWf, h.memInside⟩

theorem SameResults.outcomeFits {s t : State} (h : SameResults s t) (ho : OutcomeFits s) : OutcomeFits t := by
  obtain ⟨hres, herr, -, -⟩ := h
  unfold OutcomeFits
  rw [hres, herr]
  exact ho

/-- A change that leaves the results alone needs only its memory and its phase looked at. -/
theorem MachineInv.of_sameResults {s t : State} (h : MachineInv s) (hsame : SameResults s t)
    (hmem : t.mem.Fits t.extent) (hseq : SequencerFits t) : MachineInv t where
  memWf := hmem.1
  memInside := hmem.2
  outcome := hsame.outcomeFits h.outcome
  digest := by
    obtain ⟨-, -, -, hdg⟩ := hsame
    rw [hdg]
    exact h.digest
  sequencer := hseq

/-- A failure keeps the invariant: its code and value belong together (R110, R117). -/
theorem fail_keeps_inv {s : State} (h : MachineInv s) (f : Failure) : MachineInv (s.fail f) where
  memWf := h.memWf
  memInside := h.memInside
  outcome := .inr f.value_code
  digest := h.digest
  sequencer := trivial

theorem endByte_keeps_inv {s : State} (h : MachineInv s) (v : Byte) : MachineInv (s.endByte v) where
  memWf := h.memWf
  memInside := h.memInside
  outcome := .inl ⟨rfl, Nat.zero_le 16⟩
  digest := h.digest
  sequencer := h.sequencer

theorem completed_keeps_inv {op : SpanOp} {s : State} (h : MachineInv s) (hpass : Passed op s) :
    MachineInv (completed op s) := by
  obtain ⟨hwf, hin⟩ := completed_mem_fits hpass h.memFits
  obtain ⟨-, -, -, he, -⟩ := completed_sameOperands op s
  exact {
    memWf := hwf
    memInside := by rw [he]; exact hin
    outcome := .inl ⟨completed_err op s, completed_res_le op s⟩
    digest := by
      cases op with
      | digest =>
        rw [completed_dg_digest]
        exact .inr (adjacentDistinct_digest _)
      | block d =>
        rw [completed_dg_block]
        exact h.digest
    sequencer := sequencerFits_of_idle (by obtain _ | _ | _ := op <;> rfl) }

/-- `DONE` keeps the invariant: what the sequencer holds there is what the results may be. -/
theorem seqEnd_keeps_inv {op : SpanOp} {s : State} (h : MachineInv s) (hp : s.phase = .done op) :
    MachineInv (seqEnd op s) := by
  have hseq := h.sequencer.at_phase hp
  obtain _ | _ | _ := op
  · exact ⟨h.memWf, h.memInside, .inl ⟨rfl, Nat.zero_le 16⟩, .inr hseq, trivial⟩
  · have hcnt : (s.cnt.setWidth 32).toNat ≤ 16 := by
      rw [BitVec.toNat_setWidth_of_le (by decide)]
      exact hseq
    exact ⟨h.memWf, h.memInside, .inl ⟨rfl, hcnt⟩, h.digest, trivial⟩
  · exact ⟨h.memWf, h.memInside, .inl ⟨rfl, Nat.zero_le 16⟩, h.digest, trivial⟩

theorem coreStep_keeps_inv {s t : State} (h : MachineInv s) (hstep : CoreStep s t) : MachineInv t := by
  rcases hstep.results with hsame | ⟨f, rfl⟩ | ⟨op, hp, rfl⟩
  · exact h.of_sameResults hsame (hstep.mem_fits h.memFits) (hstep.sequencerFits h.sequencer)
  · exact fail_keeps_inv h f
  · exact seqEnd_keeps_inv h hp

theorem exec_keeps_inv {i : Instr} {s t : State} (h : MachineInv s) (hs : exec i s = .next t) : MachineInv t := by
  rcases exec_next hs with ⟨_, _, -, rfl⟩ | ⟨_, _, -, rfl⟩ | ⟨_, f, -, -, rfl⟩ | ⟨_, -, hpass, rfl⟩
  · exact endByte_keeps_inv h _
  · exact endByte_keeps_inv h _
  · exact fail_keeps_inv h f
  · exact completed_keeps_inv h hpass

theorem issue_keeps_inv {w : Word} {s t : State} (h : MachineInv s) (hs : issue w s = .next t) : MachineInv t := by
  rcases issue_next hs with ⟨_, -, rfl⟩ | ⟨_, -, hexec⟩
  · exact fail_keeps_inv h _
  · exact exec_keeps_inv h hexec

theorem issueBySteps_keeps_inv {w : Word} {s t : State} (h : MachineInv s) (hs : issueBySteps w s = .next t) :
    MachineInv t := by
  rcases issueBySteps_cases w s with hsame | ⟨op, -, hstart⟩
  · exact issue_keeps_inv h (hsame.symm.trans hs)
  · rw [hstart] at hs
    cases hs
    exact h.of_sameResults ⟨rfl, rfl, rfl, rfl⟩ h.memFits trivial

/-- Reset keeps the invariant over any memory that fits (R25). -/
theorem machineInv_afterReset {m : Memory} {n : Nat} (h : m.Fits n) (draw : Nat) (host : List HostMove) :
    MachineInv (State.afterReset draw m n host) where
  memWf := h.1
  memInside := h.2
  outcome := .inl ⟨rfl, Nat.zero_le 16⟩
  digest := .inl rfl
  sequencer := trivial

/-- Each move of the host keeps the invariant (R125, R130). -/
theorem hostMove_keeps_inv {a : HostMove} {s t : State} (h : MachineInv s) (hp : s.phase = .idle)
    (hs : hostMove a s = .next t) : MachineInv t := by
  cases a with
  | writeBufv b => cases hs; exact h.of_sameResults ⟨rfl, rfl, rfl, rfl⟩ h.memFits (sequencerFits_of_idle hp)
  | writeBuf ref bytes =>
    cases hs
    exact h.of_sameResults ⟨rfl, rfl, rfl, rfl⟩ (Memory.fits_ofBytes bytes) (sequencerFits_of_idle hp)
  | writeLen n => cases hs; exact h.of_sameResults ⟨rfl, rfl, rfl, rfl⟩ h.memFits (sequencerFits_of_idle hp)
  | writeByte off v =>
    simp only [hostMove] at hs
    split at hs <;> cases hs
    exact h.of_sameResults ⟨rfl, rfl, rfl, rfl⟩ (h.memFits.write ‹_› v) (sequencerFits_of_idle hp)
  | writeCmd w => exact issue_keeps_inv h hs
  | writeCmdBySteps w => exact issueBySteps_keeps_inv h hs
  | reset => cases hs; exact machineInv_afterReset h.memFits _ _

theorem hostTurn_keeps_inv {s t : State} (h : MachineInv s) (hp : s.phase = .idle) (hs : hostTurn s = .next t) :
    MachineInv t := by
  cases hh : s.host with
  | nil =>
    simp only [hostTurn, hh] at hs
    cases hs
    exact h
  | cons a rest =>
    simp only [hostTurn, hh] at hs
    have hrest : MachineInv { s with host := rest } :=
      h.of_sameResults ⟨rfl, rfl, rfl, rfl⟩ h.memFits (sequencerFits_of_idle hp)
    exact hostMove_keeps_inv hrest hp hs

/-- Settles O53: the host moves in `IDLE`, and each of its moves keeps the invariant; in every other phase the step is one
of R99's transitions, and each of those keeps it. -/
theorem stepKeepsInv : Obligations.StepKeepsInv := by
  intro s t h hs
  by_cases hp : s.phase = .idle
  · exact hostTurn_keeps_inv h hp ((step_idle hp).symm.trans hs)
  · exact coreStep_keeps_inv h (coreStep_of_step hp hs)

/-- Settles O52. -/
theorem invAtReset : Obligations.InvAtReset :=
  machineInv_afterReset ⟨Memory.wf_nil, fun _ hc => absurd hc List.not_mem_nil⟩ 0 []

end Sys2Proof.Machine

/-! The statements about state that concern one operation or one host move (spec/10_state.md). -/

namespace Sys2Proof.Machine

/-! ## What an operation depends on (R24) -/

/-- The operands and the buffer bytes below `LEN` are the same: all an operation may depend on (R24). -/
structure SameInputs (s s' : State) : Prop where
  bufv : s'.bufv = s.bufv
  len : s'.len = s.len
  bytes : ∀ o, o < s.length → s'.mem.read o = s.mem.read o

theorem SameInputs.length_eq {s s' : State} (h : SameInputs s s') : s'.length = s.length := congrArg BitVec.toNat h.len

/-- The entry checks look at `BUFV` and `LEN` only (R95, R116). -/
theorem SameInputs.entryFailure_eq {s s' : State} (h : SameInputs s s') (op : SpanOp) :
    entryFailure op s' = entryFailure op s := by
  unfold entryFailure
  rw [h.bufv, h.length_eq]

/-- The byte RECOVER leaves below `L` depends on the bytes below `L` only. -/
theorem recoveredMemory_congr (T : Config.Tables) {m m' : Memory} {L : Nat} (hL : 16 ≤ L)
    (h : ∀ o, o < L → m'.read o = m.read o) :
    ∀ o, o < L → (recoveredMemory T m' L).read o = (recoveredMemory T m L).read o := by
  intro o ho
  by_cases hhdr : o < 16
  · rw [recoveredMemory_outside T m' hL (.inl hhdr), recoveredMemory_outside T m hL (.inl hhdr), h o ho]
  · rw [recoveredMemory_payload T m' (by omega) ho, recoveredMemory_payload T m (by omega) ho, h o ho, h (o - 1) (by omega)]

/-- The byte OBFUSCATE leaves below `L` depends on the bytes below `L` only: a payload byte on the one before it. -/
theorem obfuscatedMemory_congr (T : Config.Tables) {m m' : Memory} {L : Nat}
    (h : ∀ o, o < L → m'.read o = m.read o) :
    ∀ o, o < L → (obfuscatedMemory T m' L).read o = (obfuscatedMemory T m L).read o := by
  intro o
  induction o with
  | zero =>
    intro _
    rw [obfuscatedMemory_header T m' (by decide), obfuscatedMemory_header T m (by decide),
      payloadDigest_congr fun p _ hp => h p hp]
  | succ o ih =>
    intro ho
    by_cases hhdr : o + 1 < 16
    · rw [obfuscatedMemory_header T m' hhdr, obfuscatedMemory_header T m hhdr, payloadDigest_congr fun p _ hp => h p hp]
    · rw [obfuscatedMemory_payload T m' (by omega) ho, obfuscatedMemory_payload T m (by omega) ho, h _ ho,
        Nat.add_sub_cancel, ih (by omega)]

/-- The mismatch count depends on the bytes below `L` only (R96). -/
theorem recoveredCount_congr {m m' : Memory} {L : Nat} (hL : 16 ≤ L) (h : ∀ o, o < L → m'.read o = m.read o) :
    recoveredCount m' L = recoveredCount m L := by
  have hread : ∀ j : Fin 16, m'.read j = m.read j := fun j => h j (by omega)
  unfold recoveredCount mismatchCount
  rw [payloadDigest_congr fun o _ ho => h o ho]
  simp only [hread]

/-- Two states with the same inputs complete a span operation with the same results. -/
theorem completed_congr {op : SpanOp} {s s' : State} (h : SameInputs s s') (hpass : Passed op s) :
    (completed op s').res = (completed op s).res ∧
    (∀ o, o < s.length → (completed op s').mem.read o = (completed op s).mem.read o) ∧
    (op = .digest → (completed op s').dg = (completed op s).dg) := by
  obtain ⟨-, -, hl⟩ := hpass
  obtain _ | _ | _ := op
  · refine ⟨rfl, h.bytes, fun _ => ?_⟩
    rw [completed_dg_digest, completed_dg_digest, h.length_eq, spanBytes, spanBytes,
      bytes_congr fun o _ ho => h.bytes o (by simpa [SpanOp.first] using ho)]
  · have hmem := recoveredMemory_congr Config.tables hl h.bytes
    refine ⟨BitVec.eq_of_toNat_eq ?_, fun o ho => ?_, nofun⟩
    · rw [completed_res_recover, completed_res_recover, h.length_eq, recoveredCount_congr hl hmem]
    · rw [completed, completed, h.length_eq]
      exact hmem o ho
  · refine ⟨rfl, fun o ho => ?_, nofun⟩
    rw [completed, completed, h.length_eq]
    exact obfuscatedMemory_congr Config.tables h.bytes o ho

/-- Settles O30: states with the same inputs take the same branch of each operation, and the results of each branch are
functions of the inputs. -/
theorem outcomeDependsOnOperandsAndBuffer : Obligations.OutcomeDependsOnOperandsAndBuffer := by
  intro i s s' t hv hlen hext hbytes hexec
  have h : SameInputs s s' := ⟨hv, hlen, hbytes⟩
  rcases exec_next hexec with ⟨key, data, rfl, rfl⟩ | ⟨key, data, rfl, rfl⟩ | ⟨op, f, rfl, hf, rfl⟩ | ⟨op, rfl, hpass, rfl⟩
  · exact ⟨_, rfl, rfl, rfl, hbytes, fun _ _ _ => rfl, nofun⟩
  · exact ⟨_, rfl, rfl, rfl, hbytes, fun _ _ _ => rfl, nofun⟩
  · refine ⟨s'.fail f, ?_, rfl, rfl, hbytes, fun key data hi => ?_, fun _ herr => absurd herr f.code_ne_zero⟩
    · rw [exec_spanInstr, spanOperation_fails _ ((h.entryFailure_eq op).trans hf)]
    · exact absurd hi (not_or.mpr (spanInstr_ne_byte op key data))
  · obtain ⟨hres, hmem, hdg⟩ := completed_congr h hpass
    obtain ⟨hbuf, -, hl⟩ := hpass
    refine ⟨completed op s', ?_, hres, ?_, hmem, fun key data hi => ?_, fun hi _ => hdg (spanInstr_injective hi)⟩
    · rw [exec_spanInstr, spanOperation_completes _ (hv.trans hbuf) (h.length_eq ▸ hl) hext]
    · rw [completed_err, completed_err]
    · exact absurd hi (not_or.mpr (spanInstr_ne_byte op key data))

/-! ## The words of the span operations and the illegal words (R52) -/

/-- A field all of whose bits the mask looks at is that of the pattern. -/
theorem field_of_masked {w mask pat : Word} (h : w &&& mask = pat) {start len : Nat}
    (hm : mask.extractLsb' start len = BitVec.allOnes len) : w.extractLsb' start len = pat.extractLsb' start len := by
  rw [← h, BitVec.extractLsb'_and, hm, BitVec.and_allOnes]

/-- A word with clear reserved bits and operand fields is its `OP` (R50). -/
theorem toNat_eq_opField {w : Word} (hr : reservedHigh w = 0 ∧ reservedLow w = 0)
    (ho : keyField w = 0 ∧ dataField w = 0) : w.toNat = (opField w).toNat := by
  obtain ⟨hhigh, hlow⟩ := hr
  obtain ⟨hkey, hdata⟩ := ho
  have := congrArg BitVec.toNat hhigh
  have := congrArg BitVec.toNat hlow
  have := congrArg BitVec.toNat hkey
  have := congrArg BitVec.toNat hdata
  simp only [reservedHigh, reservedLow, keyField, dataField, opField, BitVec.extractLsb'_toNat,
    Nat.shiftRight_eq_div_pow, BitVec.toNat_ofNat, BitVec.ofNat_eq_ofNat] at *
  have := w.isLt
  omega

theorem decodeSpan_ok {w : Word} {i j : Instr} (h : decodeSpan w i = .ok j) :
    (keyField w = 0 ∧ dataField w = 0) ∧ i = j := by
  unfold decodeSpan at h
  split at h <;> cases h
  exact ⟨‹_›, rfl⟩

/-- A word that decodes to a span operation is that operation's command word (R52, R59). -/
theorem word_of_span {w : Word} {op : SpanOp} (h : decode w = .ok (spanInstr op)) : w = encode (spanInstr op) := by
  have byte (key data : Byte) := spanInstr_ne_byte op key data
  unfold decode at h
  split at h
  case isFalse => cases h
  case isTrue hr =>
    have word {i : Instr} {n : Nat} (hop : (opField w).toNat = n) (hn : (encode i).toNat = n)
        (hi : decodeSpan w i = .ok (spanInstr op)) : w = encode (spanInstr op) := by
      obtain ⟨ho, hi⟩ := decodeSpan_ok hi
      rw [← hi]
      exact BitVec.eq_of_toNat_eq ((toNat_eq_opField hr ho).trans (hop.trans hn.symm))
    split at h
    · exact absurd (Except.ok.inj h).symm (byte _ _).1
    · exact absurd (Except.ok.inj h).symm (byte _ _).2
    · exact word ‹_› rfl h
    · exact word ‹_› rfl h
    · exact word ‹_› rfl h
    · cases h

/-- The mask of format B looks at the reserved bits and at `OP` (R52). -/
theorem fields_of_byteMask {w pat : Word} (h : w &&& 0xFF0000FF = pat) :
    reservedHigh w = reservedHigh pat ∧ reservedLow w = reservedLow pat ∧ opField w = opField pat :=
  ⟨field_of_masked h (by decide), field_of_masked h (by decide), field_of_masked h (by decide)⟩

/-- A word that matches a row of R52 decodes. -/
theorem decode_of_commandLegal {w : Word} (h : commandLegal w = true) : ∃ i, decode w = .ok i := by
  have span {pat : Word} {i : Instr} (hw : w &&& 0xFFFFFFFF = pat) (hi : decode pat = .ok i) : ∃ i, decode w = .ok i := by
    have hall : w &&& 0xFFFFFFFF = w := BitVec.and_allOnes
    exact ⟨i, by rw [← hall, hw, hi]⟩
  simp only [commandLegal, rows, Row.selects, List.any_cons, List.any_nil, Bool.or_eq_true, beq_iff_eq,
    Bool.false_eq_true, or_false] at h
  rcases h with h | h | h | h | h
  · obtain ⟨hhigh, hlow, hop⟩ := fields_of_byteMask h
    exact ⟨.recb (keyField w) (dataField w), by rw [decode, hhigh, hlow, hop]; rfl⟩
  · obtain ⟨hhigh, hlow, hop⟩ := fields_of_byteMask h
    exact ⟨.obfb (keyField w) (dataField w), by rw [decode, hhigh, hlow, hop]; rfl⟩
  · exact span (i := .digest) h (by decide)
  · exact span (i := .recover) h (by decide)
  · exact span (i := .obfuscate) h (by decide)

/-- A word the decoder rejects matches no row of R52. -/
theorem commandLegal_of_decode_error {w : Word} {e : DecodeError} (h : decode w = .error e) : commandLegal w = false := by
  by_contra hlegal
  obtain ⟨i, hi⟩ := decode_of_commandLegal ((Bool.not_eq_false _).mp hlegal)
  rw [h] at hi
  cases hi

/-! ## Return values and result registers (R18 to R21) -/

theorem missingValue_eq (op : SpanOp) : missingValue op = 0xFFFFFFFF := by
  obtain _ | _ | _ := op <;> rfl

/-- A span operation that fails an entry check: which check, with the values it reports (R110, R111, R113). -/
theorem entryFailure_some {op : SpanOp} {s : State} {f : Failure} (h : entryFailure op s = some f) :
    (f.code = 1 ∧ f.value = 0xFFFFFFFF ∧ s.bufv = false) ∨
    (f.code = 2 ∧ f.value = 0xFFFFFFFE ∧ s.bufv = true ∧ s.length < op.first) := by
  rcases entryFailure_cases op s with ⟨hv, he⟩ | ⟨hv, hl, he⟩ | ⟨-, -, he⟩ <;> rw [he] at h <;> cases h
  · exact .inl ⟨rfl, missingValue_eq op, hv⟩
  · exact .inr ⟨rfl, rfl, hv, hl⟩

/-- Settles O35: an illegal word, a byte operation, a failed entry check and a completion, each with its values. -/
theorem returnValueTable : Obligations.ReturnValueTable := by
  intro w s t h
  rcases issue_next h with ⟨e, hw, rfl⟩ | ⟨i, hw, hexec⟩
  · exact .inr (.inr (.inr ⟨rfl, rfl, commandLegal_of_decode_error hw⟩))
  rcases exec_next hexec with ⟨_, _, -, rfl⟩ | ⟨_, _, -, rfl⟩ | ⟨op, f, rfl, hf, rfl⟩ | ⟨op, rfl, -, rfl⟩
  · exact .inl ⟨rfl, Nat.zero_le 16, fun _ => rfl⟩
  · exact .inl ⟨rfl, Nat.zero_le 16, fun _ => rfl⟩
  · have hword := word_of_span hw
    rcases entryFailure_some hf with ⟨hcode, hvalue, hv⟩ | ⟨hcode, hvalue, hv, hl⟩
    · exact .inr (.inl ⟨hcode, hvalue, hv, by obtain _ | _ | _ := op <;> simp [hword, spanInstr, encode]⟩)
    · cases op with
      | digest => exact absurd hl (Nat.not_lt_zero _)
      | block d => exact .inr (.inr (.inl ⟨hcode, hvalue, hv, hl, by cases d <;> simp [hword, spanInstr, encode]⟩))
  · refine .inl ⟨completed_err op s, completed_res_le op s, fun h4 => completed_res_zero s ?_⟩
    rintro rfl
    exact h4 (word_of_span hw)

/-- DIGEST sums the bytes `[0, L)` (R89). -/
theorem spanBytes_digest (m : Memory) (L : Nat) : spanBytes .digest m L = (List.range L).map m.read := by
  rw [List.range_eq_range']
  rfl

/-- A word decodes to one operation: that of a span operation is no byte operation's. -/
theorem decode_ne_byte {w : Word} {op : SpanOp} (h : decode w = .ok (spanInstr op)) (key data : Byte) :
    decode w ≠ .ok (.recb key data) ∧ decode w ≠ .ok (.obfb key data) := by
  obtain ⟨hrecb, hobfb⟩ := spanInstr_ne_byte op key data
  rw [h]
  exact ⟨fun h => hrecb (Except.ok.inj h), fun h => hobfb (Except.ok.inj h)⟩

/-- Settles O36: of the ends an operation has, a byte operation's writes `DOUT`, DIGEST's completion `DG`, and no other
writes either. -/
theorem doutAndDgHaveOneWriter : Obligations.DoutAndDgHaveOneWriter := by
  intro w s t h
  rcases issue_next h with ⟨e, hw, rfl⟩ | ⟨i, hw, hexec⟩
  · exact ⟨by simp [hw], by simp [hw], fun _ => rfl, by simp [hw], fun _ => rfl⟩
  rcases exec_next hexec with ⟨key, data, rfl, rfl⟩ | ⟨key, data, rfl, rfl⟩ | ⟨op, f, rfl, -, rfl⟩ | ⟨op, rfl, -, rfl⟩
  · exact ⟨by simp [hw], by simp [hw], fun hno => absurd hw (hno key data).1, by simp [hw], fun _ => rfl⟩
  · exact ⟨by simp [hw], by simp [hw], fun hno => absurd hw (hno key data).2, by simp [hw], fun _ => rfl⟩
  · exact ⟨fun key data hk => absurd hk (decode_ne_byte hw key data).1,
      fun key data hk => absurd hk (decode_ne_byte hw key data).2, fun _ => rfl,
      fun _ herr => absurd herr f.code_ne_zero, fun _ => rfl⟩
  · refine ⟨fun key data hk => absurd hk (decode_ne_byte hw key data).1,
      fun key data hk => absurd hk (decode_ne_byte hw key data).2, fun _ => completed_dout op s, ?_, ?_⟩
    · intro hd _
      obtain rfl : op = .digest := spanInstr_injective (Except.ok.inj (hw.symm.trans hd))
      rw [completed_dg_digest, spanBytes_digest]
    · intro hno
      cases op with
      | digest => exact hno.elim (absurd hw) (absurd (completed_err _ s))
      | block d => exact completed_dg_block d s

/-- Settles O38: every end of an operation keeps them. -/
theorem operationsKeepOperands : Obligations.OperationsKeepOperands := by
  intro i s t h
  rcases exec_next h with ⟨_, _, -, rfl⟩ | ⟨_, _, -, rfl⟩ | ⟨_, _, -, -, rfl⟩ | ⟨op, -, -, rfl⟩
  · exact ⟨rfl, rfl, rfl, rfl, rfl⟩
  · exact ⟨rfl, rfl, rfl, rfl, rfl⟩
  · exact ⟨rfl, rfl, rfl, rfl, rfl⟩
  · exact completed_sameOperands op s

/-! ## Steps in progress (R41, R42) -/

theorem seqEnd_phase (op : SpanOp) (s : State) : (seqEnd op s).phase = .idle := by
  obtain _ | _ | _ := op <;> rfl

/-- Settles O43: the steps that write results, a failing check and `DONE`, are those that end the operation. -/
theorem stepsInProgressHideTheirResults : Obligations.StepsInProgressHideTheirResults := by
  intro s t hbusy h
  have hstep := coreStep_of_step hbusy h
  refine ⟨hstep.sameOperands, fun hnot => ?_⟩
  rcases hstep.results with hsame | ⟨f, rfl⟩ | ⟨op, -, rfl⟩
  · exact hsame
  · exact absurd (State.fail_phase s f) hnot
  · exact absurd (seqEnd_phase op s) hnot

/-! ## Host moves, host reads and reset -/

/-- Settles O6. -/
theorem stepRunsDecodedOperation : Obligations.StepRunsDecodedOperation := by
  intro s w rest i hp hh hw
  rw [step_writeCmd hp hh, issue_ok _ hw]

/-- Settles O46. -/
theorem writeBeyondExtentFaults : Obligations.WriteBeyondExtentFaults := by
  intro s off v rest hp hh hoff
  rw [step_move hp hh]
  exact if_neg (Nat.not_lt.mpr hoff)

/-- Settles O47: each readable register is a field of its own. -/
theorem hostReadsNoWorkingRegister : Obligations.HostReadsNoWorkingRegister := by
  intro r s k acc idx cnt phase
  cases r <;> rfl

/-- Settles O48. -/
theorem resetValues : Obligations.ResetValues :=
  ⟨rfl, rfl, rfl, rfl, rfl, rfl, fun j => Vector.getElem_replicate j.isLt⟩

/-- The step that performs a placed command word (assumption 2). -/
theorem step_withFetchWord {s : State} {n : Nat} {i : Instr} (h : decode (tableWord 32 n) = .ok i) :
    step (s.withFetchWord 32 n) = exec i { s with phase := .idle } :=
  (step_writeCmd rfl rfl).trans (issue_ok _ h)

/-- A span operation placed where there is no buffer fails with MissingBuffer and leaves memory alone (R111). -/
theorem step_withFetchWord_missing {s : State} {n : Nat} {op : SpanOp} (h : decode (tableWord 32 n) = .ok (spanInstr op))
    (hv : s.bufv = false) :
    ∃ t, step (s.withFetchWord 32 n) = .next t ∧ t.err = 1 ∧ t.res = 0xFFFFFFFF ∧ t.mem = s.mem := by
  have hstep := step_withFetchWord (s := s) h
  rw [exec_spanInstr, spanOperation_missing _ (by exact hv)] at hstep
  exact ⟨_, hstep, rfl, missingValue_eq op, rfl⟩

/-- Settles O50: reset leaves no buffer. -/
theorem firstOperationAfterReset : Obligations.FirstOperationAfterReset := by
  rintro w (rfl | rfl | rfl)
  · exact step_withFetchWord_missing (op := .digest) (by decide) rfl
  · exact step_withFetchWord_missing (op := .block .recover) (by decide) rfl
  · exact step_withFetchWord_missing (op := .block .obfuscate) (by decide) rfl

end Sys2Proof.Machine

/-! Memory: the host's duty of `EXTENT`, and what a step in progress writes (spec/20_memory.md). -/

namespace Sys2Proof.Machine

/-! ## The host's duty (R37, U3) -/

/-- An operation that passes its entry checks over a buffer shorter than `LEN` is refused (R37, assumption 12). -/
theorem spanOperation_short {op : SpanOp} {s : State} (body : State) (hv : s.bufv = true) (hl : op.first ≤ s.length)
    (he : s.extent < s.length) : spanOperation op s body = .refused .hostDutyExtent := by
  rcases spanOperation_cases op s body with ⟨f, hf, -⟩ | ⟨-, -, -, h⟩ | ⟨-, -, hcovers, -⟩
  · rw [(entryFailure_none_iff op s).mpr ⟨hv, hl⟩] at hf
    cases hf
  · exact h
  · exact absurd he (Nat.not_lt.mpr hcovers)

/-- Settles O37: DIGEST has no least length, and a block of at least 16 bytes passes its entry checks. -/
theorem brokenExtentDutyIsRefused : Obligations.BrokenExtentDutyIsRefused := by
  intro s hv he
  have refused (op : SpanOp) (hl : op.first ≤ s.length) : exec (spanInstr op) s = .refused .hostDutyExtent :=
    (exec_spanInstr op s).trans (spanOperation_short _ hv hl he)
  exact ⟨refused .digest (Nat.zero_le _), fun hl => ⟨refused (.block .recover) hl, refused (.block .obfuscate) hl⟩⟩

/-! ## What a step in progress writes (R35, R103) -/

/-- Only two steps in progress write memory, one byte each: a payload step, at `IDX`, and a header step, at `j`. -/
theorem CoreStep.mem_eq {s t : State} (h : CoreStep s t) :
    t.mem = s.mem ∨
    (∃ d v, s.phase = .xform d ∧ s.idx.toNat < s.length ∧ t.mem = s.mem.write s.idx.toNat v) ∨
    ∃ j v, s.phase = .hdr j ∧ j < 16 ∧ t.mem = s.mem.write j v := by
  cases h with
  | xformByte hp hlt => exact .inr (.inl ⟨_, _, hp, hlt, rfl⟩)
  | hdrByte hj hp => exact .inr (.inr ⟨_, _, hp, hj, rfl⟩)
  | @fixEnd op => obtain _ | _ | _ := op <;> exact .inl rfl
  | @done op => obtain _ | _ | _ := op <;> exact .inl rfl
  | _ => exact .inl rfl

/-- A memory after one write reads the same outside any set that holds the offset written. -/
theorem sameBytesOutside_of_write {s t : State} {a : Nat} {v : Byte} {written : Nat → Prop}
    (hm : t.mem = s.mem.write a v) (ha : written a) : SameBytesOutside written s t := by
  intro o ho
  have hne : o ≠ a := fun h => ho (h ▸ ha)
  rw [hm, Memory.read_write_other _ _ hne]

/-- Settles O44: a payload step writes at `IDX`, which the invariant keeps at or above 16, and a header step at `j`, below 16
and so in a block that passed its check. -/
theorem stepsInProgressStayInBlock : Obligations.StepsInProgressStayInBlock := by
  intro s t hinv hbusy h
  rcases (coreStep_of_step hbusy h).mem_eq with hm | ⟨d, v, hp, hlt, hm⟩ | ⟨j, v, hp, hj, hm⟩
  · exact fun o _ => congrArg (Memory.read · o) hm
  · obtain ⟨-, hlo, -⟩ : Passed (.block d) s ∧ 16 ≤ s.idx.toNat ∧ _ := hinv.sequencer.at_phase hp
    refine sameBytesOutside_of_write hm ⟨hlt, ?_⟩
    cases d with
    | recover => exact .inl ⟨hp, hlo⟩
    | obfuscate => exact .inr (.inl ⟨hp, hlo⟩)
  · obtain ⟨⟨-, -, hl⟩, -⟩ : Passed (.block .obfuscate) s ∧ j ≤ 16 := hinv.sequencer.at_phase hp
    exact sameBytesOutside_of_write hm ⟨Nat.lt_of_lt_of_le hj hl, .inr (.inr ⟨j, hp, rfl⟩)⟩

end Sys2Proof.Machine

/-! The decoder and the encoder of command words, and the selectors of a key (spec/30_encoding.md). -/

namespace Sys2Proof.Machine

/-! ## The fields of a command word (R50, R52, R60) -/

/-- A word with clear reserved bits is put together from its other fields (R50). -/
theorem toNat_of_reservedClear {w : Word} (hr : reservedHigh w = 0 ∧ reservedLow w = 0) :
    w.toNat = (dataField w).toNat * 65536 + (keyField w).toNat * 256 + (opField w).toNat := by
  obtain ⟨hhigh, hlow⟩ := hr
  have := congrArg BitVec.toNat hhigh
  have := congrArg BitVec.toNat hlow
  simp only [reservedHigh, reservedLow, keyField, dataField, opField, BitVec.extractLsb'_toNat,
    Nat.shiftRight_eq_div_pow, BitVec.toNat_ofNat, BitVec.ofNat_eq_ofNat] at *
  have := w.isLt
  omega

/-- The three parts of a format B word do not overlap (R60). -/
theorem byteWord_toNat {op : Nat} (hop : op < 256) (key data : Byte) :
    (byteWord op key data).toNat = data.toNat * 65536 + key.toNat * 256 + op := by
  have hkey : key.toNat <<< 8 < 2 ^ 16 := by have := key.isLt; omega
  have hparts : data.toNat <<< 16 + key.toNat <<< 8 = (data.toNat <<< 8 + key.toNat) <<< 8 := by omega
  have hdata := data.isLt
  have hword : (byteWord op key data).toNat = data.toNat <<< 16 ||| key.toNat <<< 8 ||| op := by
    simp (disch := omega) [byteWord, Nat.mod_eq_of_lt]
  rw [hword, ← Nat.shiftLeft_add_eq_or_of_lt hkey, hparts, ← Nat.shiftLeft_add_eq_or_of_lt hop]
  omega

theorem keyField_byteWord {op : Nat} (hop : op < 256) (key data : Byte) : keyField (byteWord op key data) = key := by
  apply BitVec.eq_of_toNat_eq
  rw [keyField, BitVec.extractLsb'_toNat, byteWord_toNat hop]
  omega

theorem dataField_byteWord {op : Nat} (hop : op < 256) (key data : Byte) : dataField (byteWord op key data) = data := by
  apply BitVec.eq_of_toNat_eq
  rw [dataField, BitVec.extractLsb'_toNat, byteWord_toNat hop]
  omega

/-- A word with clear reserved bits is the format B word of its fields (R50, R60). -/
theorem byteWord_fields {w : Word} (hr : reservedHigh w = 0 ∧ reservedLow w = 0) :
    byteWord (opField w).toNat (keyField w) (dataField w) = w := by
  apply BitVec.eq_of_toNat_eq
  rw [byteWord_toNat (by omega), toNat_of_reservedClear hr]

/-! ## Decoding (R52) -/

theorem decode_of_recbRow {w : Word} (h : w &&& 0xFF0000FF = 0x00000001) :
    decode w = .ok (.recb (keyField w) (dataField w)) := by
  obtain ⟨hhigh, hlow, hop⟩ := fields_of_byteMask h
  rw [decode, hhigh, hlow, hop]
  rfl

theorem decode_of_obfbRow {w : Word} (h : w &&& 0xFF0000FF = 0x00000002) :
    decode w = .ok (.obfb (keyField w) (dataField w)) := by
  obtain ⟨hhigh, hlow, hop⟩ := fields_of_byteMask h
  rw [decode, hhigh, hlow, hop]
  rfl

/-- Settles O2: the word of a byte operation matches its row, and its free fields are the operands; the word of a span operation
is a constant. -/
theorem decodeOfEncode : Obligations.DecodeOfEncode := by
  intro i
  cases i with
  | recb key data =>
    have hrow : encode (.recb key data) &&& 0xFF0000FF = 0x00000001 :=
      Laws.WordMatchesRow.byteWord_masked 1 (.inl rfl) key data
    rw [decode_of_recbRow hrow, encode, keyField_byteWord (by decide), dataField_byteWord (by decide)]
  | obfb key data =>
    have hrow : encode (.obfb key data) &&& 0xFF0000FF = 0x00000002 :=
      Laws.WordMatchesRow.byteWord_masked 2 (.inr rfl) key data
    rw [decode_of_obfbRow hrow, encode, keyField_byteWord (by decide), dataField_byteWord (by decide)]
  | digest => decide
  | recover => decide
  | obfuscate => decide

/-- A word that decodes has clear reserved bits, and its `OP` says which operation it is: a byte operation with the word's
fields as operands, or a span operation whose operand fields are clear (R51, R54). -/
theorem decode_ok_cases {w : Word} {i : Instr} (h : decode w = .ok i) :
    (reservedHigh w = 0 ∧ reservedLow w = 0) ∧
    ((opField w).toNat = 1 ∧ i = .recb (keyField w) (dataField w) ∨
     (opField w).toNat = 2 ∧ i = .obfb (keyField w) (dataField w) ∨
     (3 ≤ (opField w).toNat ∧ (opField w).toNat ≤ 5) ∧ (keyField w = 0 ∧ dataField w = 0) ∧ ∃ op, i = spanInstr op) := by
  have span {n : Nat} (hop : (opField w).toNat = n) (hn : 3 ≤ n ∧ n ≤ 5) (op : SpanOp)
      (hi : decodeSpan w (spanInstr op) = .ok i) :
      (3 ≤ (opField w).toNat ∧ (opField w).toNat ≤ 5) ∧ (keyField w = 0 ∧ dataField w = 0) ∧ ∃ op, i = spanInstr op := by
    obtain ⟨hfields, rfl⟩ := decodeSpan_ok hi
    exact ⟨hop ▸ hn, hfields, op, rfl⟩
  unfold decode at h
  split at h
  case isFalse => cases h
  case isTrue hr =>
    refine ⟨hr, ?_⟩
    split at h
    case h_1 hop => exact .inl ⟨hop, (Except.ok.inj h).symm⟩
    case h_2 hop => exact .inr (.inl ⟨hop, (Except.ok.inj h).symm⟩)
    case h_3 hop => exact .inr (.inr (span hop (by decide) .digest h))
    case h_4 hop => exact .inr (.inr (span hop (by decide) (.block .recover) h))
    case h_5 hop => exact .inr (.inr (span hop (by decide) (.block .obfuscate) h))
    case h_6 => cases h

/-- Settles O3: a byte operation's word is put together from its fields again, and a span operation has one word. -/
theorem encodeOfDecode : Obligations.EncodeOfDecode := by
  intro w i h
  obtain ⟨hr, ⟨hop, rfl⟩ | ⟨hop, rfl⟩ | ⟨-, -, op, rfl⟩⟩ := decode_ok_cases h
  · rw [encode, ← hop, byteWord_fields hr]
  · rw [encode, ← hop, byteWord_fields hr]
  · exact (word_of_span h).symm

/-- The command word of every operation matches a row of R52. -/
theorem commandLegal_encode (i : Instr) : commandLegal (encode i) = true := by
  have hrow : Laws.WordMatchesRow.Statement i := by
    cases i with
    | recb key data => exact Laws.WordMatchesRow.recb key data
    | obfb key data => exact Laws.WordMatchesRow.obfb key data
    | digest => exact Laws.WordMatchesRow.digest
    | recover => exact Laws.WordMatchesRow.recover
    | obfuscate => exact Laws.WordMatchesRow.obfuscate
  obtain ⟨hselects, hmem⟩ := hrow
  exact List.any_eq_true.mpr ⟨_, hmem, hselects⟩

/-- A word that decodes matches a row of R52. -/
theorem commandLegal_of_decode_ok {w : Word} {i : Instr} (h : decode w = .ok i) : commandLegal w = true := by
  rw [← encodeOfDecode w i h]
  exact commandLegal_encode i

/-- What does not decode to an operation is rejected. -/
theorem decode_error_of_not_ok {w : Word} (h : ∀ i, decode w ≠ .ok i) : ∃ e, decode w = .error e := by
  cases hw : decode w with
  | error e => exact ⟨e, rfl⟩
  | ok i => exact absurd hw (h i)

/-- A word that matches no row of R52 is rejected. -/
theorem decode_error_of_not_commandLegal {w : Word} (h : commandLegal w = false) : ∃ e, decode w = .error e :=
  decode_error_of_not_ok fun i hi => by
    rw [commandLegal_of_decode_ok hi] at h
    cases h

/-- Settles O4: a row of format B leaves `KEY` and `DATA` free, a row of format S fixes the whole word. -/
theorem decodeByMaskAndMatch : Obligations.DecodeByMaskAndMatch := by
  intro w
  have hall : w &&& 0xFFFFFFFF = w := BitVec.and_allOnes
  rw [hall]
  refine ⟨decode_of_recbRow, decode_of_obfbRow, ?_, ?_, ?_, decode_error_of_not_commandLegal⟩
  · rintro rfl
    exact decodeOfEncode .digest
  · rintro rfl
    exact decodeOfEncode .recover
  · rintro rfl
    exact decodeOfEncode .obfuscate

/-- Settles O1: each word is the command word of its operation. -/
theorem sampleWordsDecode : Obligations.SampleWordsDecode :=
  ⟨decodeOfEncode (.recb 0x10 0x24), decodeOfEncode (.obfb 0xFF 0xFF), decodeOfEncode (.recb 0xC8 0x81),
    decodeOfEncode (.obfb 0xFE 0x12), decodeOfEncode .digest, decodeOfEncode .recover, decodeOfEncode .obfuscate⟩

/-! ## Illegal words (R54, R114) -/

/-- Bits 23:8 are `DATA` and `KEY` (R50). -/
theorem operandBits_eq_zero {w : Word} (h : keyField w = 0 ∧ dataField w = 0) : w.extractLsb' 8 16 = 0#16 := by
  obtain ⟨hkey, hdata⟩ := h
  have hkey := congrArg BitVec.toNat hkey
  have hdata := congrArg BitVec.toNat hdata
  apply BitVec.eq_of_toNat_eq
  simp only [keyField, dataField, BitVec.extractLsb'_toNat, Nat.shiftRight_eq_div_pow, BitVec.toNat_ofNat,
    BitVec.ofNat_eq_ofNat] at *
  omega

/-- While no operation is in progress a failure writes `ERR` and `RES` only (R117). -/
theorem State.fail_of_idle {s : State} (h : s.phase = .idle) (f : Failure) :
    s.fail f = { s with err := f.code, res := f.value } := by
  rw [State.fail, ← h]

/-- Settles O5: a word that decodes meets none of the conditions, so a word that meets one is rejected. -/
theorem illegalWordFails : Obligations.IllegalWordFails := by
  intro s w rest hp hh hill
  have hnot : ∀ i, decode w ≠ .ok i := by
    intro i hi
    have hlegal := commandLegal_of_decode_ok hi
    obtain ⟨⟨hhigh, hlow⟩, hop⟩ := decode_ok_cases hi
    have hspan : 3 ≤ (opField w).toNat → w.extractLsb' 8 16 = 0#16 := by
      intro h3
      obtain ⟨hop, -⟩ | ⟨hop, -⟩ | ⟨-, hfields, -⟩ := hop
      · omega
      · omega
      · exact operandBits_eq_zero hfields
    rw [← opField] at hill
    rcases hill with h | h | h | h | h | ⟨h3, -, h⟩ | h
    · omega
    · omega
    · omega
    · exact h hhigh
    · exact h hlow
    · exact h (hspan h3)
    · exact absurd (h.symm.trans hlegal) (by decide)
  obtain ⟨e, he⟩ := decode_error_of_not_ok hnot
  rw [step_writeCmd hp hh, issue_error _ he, State.fail_of_idle (by exact hp)]
  rfl

/-! ## The selectors of a key (R55) -/

theorem keyClass_val (k : Byte) : (keyClass k).val = k.toNat % 7 := rfl

theorem lutIndex_val (k : Byte) : (lutIndex k).val = k.toNat % 13 := rfl

/-- The selectors take every pair of values on the keys below 91, 7 and 13 being coprime (R55). -/
theorem exists_key_of_selectors (c : Fin 7) (l : Fin 13) :
    ∃ k : Byte, k.toNat < 91 ∧ keyClass k = c ∧ lutIndex k = l := by
  have hco : Nat.Coprime 7 13 := by decide
  obtain ⟨n, hlt, hc, hl⟩ : ∃ n, n < 91 ∧ n ≡ c [MOD 7] ∧ n ≡ l [MOD 13] :=
    ⟨_, Nat.chineseRemainder_lt_mul hco c l (by decide) (by decide), (Nat.chineseRemainder hco c l).2⟩
  have hn : (BitVec.ofNat 8 n).toNat = n := Nat.mod_eq_of_lt (by omega)
  refine ⟨BitVec.ofNat 8 n, by omega, Fin.ext ?_, Fin.ext ?_⟩
  · rw [keyClass_val, hn, hc, Nat.mod_eq_of_lt c.isLt]
  · rw [lutIndex_val, hn, hl, Nat.mod_eq_of_lt l.isLt]

/-- Keys 91 or 182 apart have the same selectors (R55). -/
theorem selectors_periodic {k : Byte} {n : Nat} (hn : n = 91 ∨ n = 182) (hle : k.toNat + n ≤ 255) :
    keyClass (k + BitVec.ofNat 8 n) = keyClass k ∧ lutIndex (k + BitVec.ofNat 8 n) = lutIndex k := by
  have hsum : (k + BitVec.ofNat 8 n).toNat = k.toNat + n := by
    rw [BitVec.toNat_add, BitVec.toNat_ofNat]
    omega
  constructor <;> apply Fin.ext
  · rw [keyClass_val, keyClass_val, hsum]
    omega
  · rw [lutIndex_val, lutIndex_val, hsum]
    omega

/-- With the same selectors, two keys recover a byte differently only as XOR operands (R55, R73). -/
theorem recb_of_same_selectors (T : Config.Tables) {k k' : Byte} (hc : keyClass k' = keyClass k)
    (hl : lutIndex k' = lutIndex k) (x : Byte) : recb T k' x = recb T k x ^^^ k ^^^ k' := by
  rw [recb, recb, hc, hl, xor_cancel]

/-- With the same selectors, two keys obfuscate a byte differently only as XOR operands (R55, R74). -/
theorem obfb_of_same_selectors (T : Config.Tables) {k k' : Byte} (hc : keyClass k' = keyClass k)
    (hl : lutIndex k' = lutIndex k) (x : Byte) : obfb T k' x = obfb T k (x ^^^ k ^^^ k') := by
  have hxor : x ^^^ k ^^^ k' ^^^ k = x ^^^ k' := by
    rw [BitVec.xor_assoc x, BitVec.xor_comm k, ← BitVec.xor_assoc, xor_cancel]
  rw [obfb, obfb, hc, hl, hxor]

/-- Settles O7. -/
theorem keySelectors : Obligations.KeySelectors := by
  refine ⟨fun k => ⟨keyClass_val k, lutIndex_val k⟩, exists_key_of_selectors, ?_⟩
  intro T k x n hn hle
  obtain ⟨hc, hl⟩ := selectors_periodic hn hle
  exact ⟨hc, hl, recb_of_same_selectors T hc hl x, obfb_of_same_selectors T hc hl x⟩

end Sys2Proof.Machine

/-! The tables' contract, and the byte transforms and their operations (spec/40_byte_transform.md). -/

namespace Sys2Proof.Machine

open Sys2Proof.Config (Tables IsBitPermutation)

/-! ## The sources of a bit permutation (R58, R70) -/

/-- Output bit `j` of `P` is input bit `src j` (R58): what `IsBitPermutation` says of `P` and its sources. -/
def HasSources (P : Byte → Byte) (src : Fin 8 → Fin 8) : Prop :=
  ∀ (x : Byte) (j : Fin 8), (P x).getLsbD j = x.getLsbD (src j)

theorem isBitPermutation_iff (P : Byte → Byte) :
    IsBitPermutation P ↔ ∃ src, Function.Injective src ∧ HasSources P src := Iff.rfl

/-- A byte is its eight bits. -/
theorem byte_ext {a b : Byte} (h : ∀ j : Fin 8, a.getLsbD j = b.getLsbD j) : a = b :=
  BitVec.eq_of_getLsbD_eq fun i hi => h ⟨i, hi⟩

theorem getLsbD_twoPow_fin (i j : Fin 8) : (BitVec.twoPow 8 i).getLsbD j = decide (j = i) := by
  simp [Fin.ext_iff, eq_comm]

/-- The sources determine the function. -/
theorem HasSources.eq {P Q : Byte → Byte} {src : Fin 8 → Fin 8} (hP : HasSources P src) (hQ : HasSources Q src) :
    Q = P :=
  funext fun x => byte_ext fun j => (hQ x j).trans (hP x j).symm

/-- The one-bit bytes determine the sources. -/
theorem HasSources.unique {P Q : Byte → Byte} {srcP srcQ : Fin 8 → Fin 8} (hP : HasSources P srcP)
    (hQ : HasSources Q srcQ) (h : ∀ i : Fin 8, Q (BitVec.twoPow 8 i) = P (BitVec.twoPow 8 i)) : srcQ = srcP := by
  funext j
  have hbit : (Q (BitVec.twoPow 8 (srcP j))).getLsbD j = decide (srcP j = srcP j) := by
    rw [h, bitPermutation_bit hP]
  rw [bitPermutation_bit hQ, decide_eq_decide] at hbit
  exact hbit.mpr rfl

theorem HasSources.comp {P Q : Byte → Byte} {srcP srcQ : Fin 8 → Fin 8} (hP : HasSources P srcP)
    (hQ : HasSources Q srcQ) : HasSources (Q ∘ P) (srcP ∘ srcQ) :=
  fun x j => (hQ (P x) j).trans (hP x (srcQ j))

/-- The sources of a function and of its left inverse undo each other: both they in sequence and `id` are sources of the
identity. -/
theorem HasSources.leftInverse {P Q : Byte → Byte} {srcP srcQ : Fin 8 → Fin 8} (hP : HasSources P srcP)
    (hQ : HasSources Q srcQ) (h : ∀ x, Q (P x) = x) (j : Fin 8) : srcP (srcQ j) = j :=
  congrFun (HasSources.unique (P := id) (srcP := id) (fun _ _ => rfl) (hP.comp hQ) fun _ => h _) j

/-! ## What holds of every bit permutation (R72) -/

/-- XOR of a byte with itself shows that 0 is kept. -/
theorem bitPermutation_zero {P : Byte → Byte} (h : IsBitPermutation P) : P 0x00 = 0x00 := by
  have hxor := bitPermutation_xor h 0 0
  rwa [BitVec.xor_self, BitVec.xor_self] at hxor

theorem getLsbD_ones (j : Fin 8) : (0xFF : Byte).getLsbD j = true := by
  decide +revert

theorem bitPermutation_ones {P : Byte → Byte} (h : IsBitPermutation P) : P 0xFF = 0xFF := by
  obtain ⟨src, -, hP⟩ := h
  exact byte_ext fun j => by rw [hP, getLsbD_ones, getLsbD_ones]

/-- The complement is XOR with all ones (R8 (c)). -/
theorem not8_eq_xor (a : Byte) : not8 a = 0xFF ^^^ a :=
  (BitVec.allOnes_xor (x := a)).symm

theorem bitPermutation_not8 {P : Byte → Byte} (h : IsBitPermutation P) (a : Byte) : P (not8 a) = not8 (P a) := by
  rw [not8_eq_xor, not8_eq_xor, bitPermutation_xor h, bitPermutation_ones h]

/-- A permutation of the bit positions only reorders them. -/
theorem map_finRange_perm {src : Fin 8 → Fin 8} (h : Function.Injective src) :
    ((List.finRange 8).map src).Perm (List.finRange 8) :=
  Equiv.Perm.map_finRange_perm (.ofBijective src (Finite.injective_iff_bijective.mp h))

/-- The bits of the image are those of the byte, counted in another order. -/
theorem onesOf_bitPermutation {P : Byte → Byte} (h : IsBitPermutation P) (a : Byte) : onesOf (P a) = onesOf a := by
  obtain ⟨src, hinj, hP⟩ := h
  calc onesOf (P a)
      = (List.finRange 8).countP fun j => a.getLsbD (src j) := by simp only [onesOf, hP]
    _ = ((List.finRange 8).map src).countP fun j : Fin 8 => a.getLsbD j := List.countP_map.symm
    _ = onesOf a := (map_finRange_perm hinj).countP_eq _

/-- The image of a one-bit byte has its bit where the source is that bit. -/
theorem bitPermutation_oneBit {P : Byte → Byte} (h : IsBitPermutation P) (i : Fin 8) :
    ∃ j : Fin 8, P (BitVec.twoPow 8 i) = BitVec.twoPow 8 j := by
  obtain ⟨src, hinj, hP⟩ := h
  obtain ⟨j, rfl⟩ := Finite.injective_iff_surjective.mp hinj i
  refine ⟨j, byte_ext fun b => ?_⟩
  rw [bitPermutation_bit hP, getLsbD_twoPow_fin, decide_eq_decide]
  exact hinj.eq_iff

/-- The eight one-bit images determine a bit permutation. -/
theorem bitPermutation_eq {P Q : Byte → Byte} (hP : IsBitPermutation P) (hQ : IsBitPermutation Q)
    (h : ∀ i : Fin 8, Q (BitVec.twoPow 8 i) = P (BitVec.twoPow 8 i)) : Q = P := by
  obtain ⟨srcP, -, hP⟩ := (isBitPermutation_iff P).mp hP
  obtain ⟨srcQ, -, hQ⟩ := (isBitPermutation_iff Q).mp hQ
  obtain rfl := hP.unique hQ h
  exact hP.eq hQ

/-! ## Admissible tables (R70) -/

/-- The half of P1 that R70 derives: the recovery entry undoes the obfuscation entry. -/
theorem permRec_permObf {T : Tables} (h : T.Admissible) (c : Fin 7) (x : Byte) : T.permRec c (T.permObf c x) = x :=
  inverse_both_sides (h.inverse c) x

theorem isBitPermutation_of_entry {T : Tables} (h : T.Admissible) {c : Fin 7} {P : Byte → Byte}
    (hP : P = T.permRec c ∨ P = T.permObf c) : IsBitPermutation P := by
  obtain rfl | rfl := hP
  · exact h.bitsRec c
  · exact h.bitsObf c

/-- Settles O10: P1 in either order makes the sources of the two directions undo each other in that order. -/
theorem tablesKeepTheirContract : Obligations.TablesKeepTheirContract := by
  refine ⟨Config.tables_admissible, fun T hT => ⟨fun c x => ⟨hT.inverse c x, permRec_permObf hT c x⟩, ?_, ?_⟩⟩
  · intro c
    obtain ⟨srcRec, -, hrec⟩ := (isBitPermutation_iff _).mp (hT.bitsRec c)
    obtain ⟨srcObf, -, hobf⟩ := (isBitPermutation_iff _).mp (hT.bitsObf c)
    exact ⟨srcRec, srcObf, hobf.leftInverse hrec (permRec_permObf hT c), hrec.leftInverse hobf (hT.inverse c),
      fun x j => ⟨hrec x j, hobf x j⟩⟩
  · exact fun a b hab => ⟨hT.distinctRec a b hab, hT.distinctObf a b hab⟩

/-- Settles O11: every entry is a bit permutation. -/
theorem bitPermutationLaws : Obligations.BitPermutationLaws := by
  intro T hT c P hP
  have h := isBitPermutation_of_entry hT hP
  exact ⟨bitPermutation_zero h, bitPermutation_ones h, bitPermutation_xor h, bitPermutation_not8 h,
    onesOf_bitPermutation h, bitPermutation_oneBit h, fun Q hQ => bitPermutation_eq h hQ⟩

/-! ## The two transforms undo each other (R77) -/

theorem recb_obfb {T : Tables} (h : T.Admissible) (k x : Byte) : recb T k (obfb T k x) = x := by
  rw [recb, obfb, permRec_permObf h, xor_cancel, xor_cancel]

theorem obfb_recb {T : Tables} (h : T.Admissible) (k y : Byte) : obfb T k (recb T k y) = y := by
  rw [obfb, recb, xor_cancel, xor_cancel, h.inverse]

theorem exec_recb (key data : Byte) (s : State) :
    exec (.recb key data) s = .next (s.endByte (recb Config.tables key data)) := rfl

theorem exec_obfb (key data : Byte) (s : State) :
    exec (.obfb key data) s = .next (s.endByte (obfb Config.tables key data)) := rfl

/-- Settles O12. -/
theorem byteTransformsAreInverse : Obligations.ByteTransformsAreInverse := by
  constructor
  · intro T hT k
    have hrec : Function.LeftInverse (recb T k) (obfb T k) := recb_obfb hT k
    have hobf : Function.LeftInverse (obfb T k) (recb T k) := obfb_recb hT k
    exact ⟨hrec, hobf, ⟨hobf.injective, hrec.surjective⟩, ⟨hrec.injective, hobf.surjective⟩⟩
  · intro s k x
    exact ⟨⟨_, _, exec_obfb k x s, exec_recb k _ _, recb_obfb Config.tables_admissible k x⟩,
      ⟨_, _, exec_recb k x s, exec_obfb k _ _, obfb_recb Config.tables_admissible k x⟩⟩

/-! ## Identities that need no table (R78) -/

theorem recb_zero {T : Tables} (h : T.Admissible) (k : Byte) : recb T k 0x00 = T.mix (lutIndex k) ^^^ k := by
  rw [recb, bitPermutation_zero (h.bitsRec _), BitVec.ofNat_eq_ofNat, BitVec.zero_xor]

theorem recb_ones {T : Tables} (h : T.Admissible) (k : Byte) : recb T k 0xFF = not8 (T.mix (lutIndex k) ^^^ k) := by
  rw [recb, bitPermutation_ones (h.bitsRec _), not8_eq_xor, BitVec.xor_assoc]

/-- `obfb` undoes `recb`, so it takes the value of `recb` at 0 back to 0. -/
theorem obfb_mask {T : Tables} (h : T.Admissible) (k : Byte) : obfb T k (T.mix (lutIndex k) ^^^ k) = 0x00 := by
  rw [← recb_zero h, obfb_recb h]

theorem obfb_not8_mask {T : Tables} (h : T.Admissible) (k : Byte) :
    obfb T k (not8 (T.mix (lutIndex k) ^^^ k)) = 0xFF := by
  rw [← recb_ones h, obfb_recb h]

/-- The difference law: a difference of ciphertext bytes is only permuted. -/
theorem recb_xor {T : Tables} (h : T.Admissible) (k c e : Byte) :
    recb T k (c ^^^ e) = recb T k c ^^^ T.permRec (keyClass k) e := by
  rw [recb, recb, bitPermutation_xor (h.bitsRec _)]
  ac_rfl

/-- Settles O13: the flip of one bit is the difference law for a one-bit byte. -/
theorem tableFreeIdentities : Obligations.TableFreeIdentities := by
  refine fun T hT k => ⟨recb_zero hT k, recb_ones hT k, obfb_mask hT k, obfb_not8_mask hT k, recb_xor hT k, ?_⟩
  intro c b
  obtain ⟨b', hb⟩ := bitPermutation_oneBit (hT.bitsRec (keyClass k)) b
  exact ⟨b', by rw [recb_xor hT, hb]⟩

/-! ## The byte operations (R75, R76) -/

theorem exec_recb_zero (key : Byte) (s : State) :
    exec (.recb key 0) s = .next (s.endByte (Config.tables.mix (lutIndex key) ^^^ key)) := by
  rw [exec_recb, recb_zero Config.tables_admissible]

theorem exec_obfb_mask (key : Byte) (s : State) :
    exec (.obfb key (Config.tables.mix (lutIndex key) ^^^ key)) s = .next (s.endByte 0) := by
  rw [exec_obfb, obfb_mask Config.tables_admissible]

/-- Settles O8: `State.endByte` writes these three registers, and the selectors are the remainders of the key. -/
theorem recbResult : Obligations.RecbResult :=
  fun key data s => ⟨exec_recb key data s, exec_recb_zero key s⟩

/-- Settles O9: OBFB leaves in `DOUT` the byte that RECB takes back to `DATA`. -/
theorem obfbResult : Obligations.ObfbResult := by
  refine fun key data s => ⟨exec_obfb key data s, exec_obfb_mask key s, fun t ht => ?_⟩
  cases (exec_obfb key data s).symm.trans ht
  rw [exec_recb, State.endByte_dout, recb_obfb Config.tables_admissible]
  rfl

end Sys2Proof.Machine

/-! The checksum engine and DIGEST (spec/41_checksum.md). -/

namespace Sys2Proof.Machine

/-! ## Slot sums (R86) -/

/-- The slot sum over the positions of the span: the form in which terms are added, dropped and exchanged. -/
theorem slotSum_eq_sum (bs : List Byte) (j : Nat) :
    slotSum bs j = ∑ i ∈ Finset.range bs.length with i % 16 = j, (bs.getD i 0).toNat := rfl

@[simp] theorem slotSum_nil (j : Nat) : slotSum [] j = 0 := rfl

/-- A byte at the end of a span adds to the slot of its position. -/
theorem slotSum_concat (bs : List Byte) (b : Byte) (j : Nat) :
    slotSum (bs ++ [b]) j = slotSum bs j + if bs.length % 16 = j then b.toNat else 0 := by
  have hold : ∀ i ∈ Finset.range bs.length, (bs ++ [b]).getD i 0 = bs.getD i 0 :=
    fun i hi => List.getD_append _ _ _ _ (Finset.mem_range.mp hi)
  have hnew : (bs ++ [b]).getD bs.length 0 = b := by simp
  rw [slotSum_eq_sum, slotSum_eq_sum, Finset.sum_filter, Finset.sum_filter, List.length_append, List.length_singleton,
    Finset.sum_range_succ, hnew]
  congr 1
  exact Finset.sum_congr rfl fun i hi => by rw [hold i hi]

/-- Bytes 0x00 at the end of a span add nothing. -/
theorem slotSum_append_zeros (bs : List Byte) (n j : Nat) : slotSum (bs ++ List.replicate n 0) j = slotSum bs j := by
  induction n with
  | zero => rw [List.replicate_zero, List.append_nil]
  | succ n ih => rw [List.replicate_succ', ← List.append_assoc, slotSum_concat, ih]; simp

/-- Exchanging the bytes at `p` and `q` is reading through the transposition of `p` and `q`. -/
theorem getD_exchange {bs : List Byte} {p q : Nat} (hp : p < bs.length) (hq : q < bs.length) (i : Nat) :
    ((bs.set p (bs.getD q 0)).set q (bs.getD p 0)).getD i 0 = bs.getD (Equiv.swap p q i) 0 := by
  rw [Equiv.swap_apply_def]
  split_ifs with hip hiq
  · subst hip
    by_cases hpq : i = q
    · simp [← hpq, hp]
    · simp [hp, Ne.symm hpq]
  · simp [hiq, hp, hq]
  · simp [Ne.symm hip, Ne.symm hiq]

/-- An exchange of two bytes of the same slot exchanges two terms of one slot sum. -/
theorem slotSum_exchange {bs : List Byte} {p q : Nat} (hp : p < bs.length) (hq : q < bs.length) (h : p % 16 = q % 16)
    (j : Nat) : slotSum ((bs.set p (bs.getD q 0)).set q (bs.getD p 0)) j = slotSum bs j := by
  rw [slotSum_eq_sum, slotSum_eq_sum, List.length_set, List.length_set]
  refine Finset.sum_equiv (Equiv.swap p q) (fun i => ?_) fun i _ => by rw [getD_exchange hp hq]
  rw [Finset.mem_filter, Finset.mem_filter, Finset.mem_range, Finset.mem_range, Equiv.swap_apply_def]
  split_ifs with hip hiq
  · rw [hip]
    simp only [hp, hq, h]
  · rw [hiq]
    simp only [hp, hq, h]
  · rfl

/-! ## The accumulation (R86) -/

/-- The accumulation adds to each slot its slot sum, modulo 256. -/
theorem accumulate_get (a : Slots) (bs : List Byte) (j : Fin 16) :
    (accumulate a 0 bs)[j] = BitVec.ofNat 8 (a[j].toNat + slotSum bs j) := by
  induction bs using List.reverseRecOn with
  | nil => simp [accumulate]
  | append_singleton bs b ih =>
    rw [accumulate_append, accumulate, accumulate, addSlot_get, ih, slotSum_concat, Nat.zero_add, ← slotOf_val]
    by_cases h : slotOf bs.length = j
    · rw [if_pos h, if_pos (congrArg Fin.val h), ← Nat.add_assoc, BitVec.ofNat_add _ b.toNat, BitVec.ofNat_toNat,
        BitVec.setWidth_eq, add8]
    · rw [if_neg h, if_neg (Fin.val_ne_of_ne h), Nat.add_zero]

/-- Settles O14, by induction on the span from its end. -/
theorem accumulationIsSlotSums : Obligations.AccumulationIsSlotSums :=
  fun bs => ⟨accumulate_get Config.magic bs, accumulate_add_16 Config.magic 0 bs⟩

/-! ## The de-collision pass (R87) -/

/-- Each of the steps `j .. j + n - 1` looks at its left neighbour as the pass leaves it. -/
theorem decollideFrom_get_step (a : Slots) {j n : Nat} (h1 : 1 ≤ j) (h2 : j + n ≤ 16) {i : Nat} (hi : i + 1 < 16)
    (hlo : j ≤ i + 1) (hhi : i + 1 < j + n) :
    (decollideFrom a j n)[i + 1] = if (decollideFrom a j n)[i] = a[i + 1] then not8 a[i + 1] else a[i + 1] := by
  induction n generalizing a j with
  | zero => omega
  | succ n ih =>
    simp only [decollideFrom_succ]
    by_cases hij : i + 1 = j
    · subst hij
      rw [decollideFrom_get_outside _ (by omega) (by omega) _ hi (by omega),
        decollideFrom_get_outside _ (by omega) (by omega) i (by omega) (by omega), fixSlot_get a h1 hi _ hi, if_pos rfl,
        fixSlot_get a h1 hi i (by omega), if_neg (by omega : ¬ i = i + 1)]
      rfl
    · rw [ih (fixSlot a j) (by omega) (by omega) (by omega) (by omega), fixSlot_get a h1 (by omega) _ hi, if_neg hij]

theorem decollide_zero (a : Slots) : (decollide a)[(0 : Fin 16)] = a[(0 : Fin 16)] :=
  decollideFrom_get_outside a (Nat.le_refl 1) (Nat.le_refl 16) 0 (by omega) (by omega)

theorem decollide_succ (a : Slots) (j : Fin 15) :
    (decollide a)[j.succ] = if (decollide a)[j.castSucc] = a[j.succ] then not8 a[j.succ] else a[j.succ] :=
  decollideFrom_get_step a (Nat.le_refl 1) (Nat.le_refl 16) (by omega) (by omega) (by omega)

/-- The pass complements a slot or keeps it. -/
theorem decollide_eq_or_not8 (a : Slots) (j : Fin 16) : (decollide a)[j] = a[j] ∨ (decollide a)[j] = not8 a[j] := by
  cases j using Fin.cases with
  | zero => exact .inl (decollide_zero a)
  | succ j =>
    rw [decollide_succ]
    exact (ite_eq_or_eq _ _ _).symm

theorem decollide_succ_of_eq {a : Slots} {j : Fin 15} (h : (decollide a)[j.castSucc] = a[j.succ]) :
    (decollide a)[j.succ] = not8 a[j.succ] :=
  (decollide_succ a j).trans (if_pos h)

/-- Settles O15: in the example step 1 complements slot 1, and step 2 compares slot 2 with that complement. -/
theorem decollisionIsSequential : Obligations.DecollisionIsSequential := by
  refine fun a => ⟨decollide_zero a, decollide_succ a, fun h0 h1 h2 => ?_⟩
  have hslot1 : (decollide a)[(1 : Fin 16)] = 0xEF :=
    (decollide_succ_of_eq (j := 0) ((decollide_zero a).trans (h0.trans h1.symm))).trans (congrArg not8 h1)
  exact ⟨hslot1, (decollide_succ_of_eq (j := 1) (hslot1.trans h2.symm)).trans (congrArg not8 h2)⟩

/-! ## The digest (R88, R90 to R92) -/

/-- Settles O16: the slots before the pass are the slot sums; `0x0F` makes slot 0 equal to slot 15 (V-D18). -/
theorem digestHasNoEqualNeighbours : Obligations.DigestHasNoEqualNeighbours := by
  refine ⟨fun bs => ⟨adjacentDistinct_digest bs, ?_, fun j => ?_⟩, [0x0F], by decide⟩
  · exact (decollide_zero _).trans (accumulate_get Config.magic bs 0)
  · rw [← accumulate_get]
    exact decollide_eq_or_not8 _ j

/-- Slot sums equal modulo 256 give the same accumulator, and so the same digest (R88). -/
theorem digest_congr {bs bs' : List Byte} (h : ∀ j < 16, slotSum bs j % 256 = slotSum bs' j % 256) :
    digest bs = digest bs' := by
  have hacc : accumulate Config.magic 0 bs = accumulate Config.magic 0 bs' := by
    refine Vector.ext fun j hj => BitVec.eq_of_toNat_eq ?_
    have hget (bs : List Byte) := accumulate_get Config.magic bs ⟨j, hj⟩
    simp only [Fin.getElem_fin] at hget
    rw [hget, hget, BitVec.toNat_ofNat, BitVec.toNat_ofNat]
    exact Nat.ModEq.add_left _ (h j hj)
  rw [digest, hacc, digest]

theorem digest_append_zeros (bs : List Byte) (n : Nat) : digest (bs ++ List.replicate n 0) = digest bs :=
  digest_congr fun j _ => by rw [slotSum_append_zeros]

/-- No two neighbours of `MAGIC` are equal, so the pass leaves it as it is (R90). -/
theorem digest_nil : digest [] = Config.magic := by decide

/-- Settles O17: the empty span has slot sums 0, and a run of 0x00 bytes is that run appended to it. -/
theorem emptySpanDigest : Obligations.EmptySpanDigest :=
  ⟨digest_nil, fun _ h => digest_congr h, digest_append_zeros []⟩

/-- Settles O18: neither change to the span alters a slot sum. -/
theorem digestDependsOnSlotSums : Obligations.DigestDependsOnSlotSums :=
  ⟨fun _ _ => digest_congr, digest_append_zeros,
    fun _ _ _ hp hq h => digest_congr fun j _ => by rw [slotSum_exchange hp hq h]⟩

/-! ## DIGEST (R89) -/

/-- Settles O19: DIGEST has no least length, so a buffer is its only entry check. -/
theorem digestResult : Obligations.DigestResult := by
  refine fun s => ⟨fun hv => ?_, fun ⟨hv, he⟩ => ?_⟩
  · exact (exec_spanInstr .digest s).trans (spanOperation_missing _ hv)
  · have hdg : (completed .digest s).dg = digest ((List.range s.length).map s.mem.read) := by
      rw [completed_dg_digest, spanBytes_digest]
    have hempty (h : s.length = 0) : (completed .digest s).dg = Config.magic := by
      rw [hdg, h, List.range_zero, List.map_nil, digest_nil]
    exact ⟨_, (exec_spanInstr .digest s).trans (spanOperation_completes _ hv (Nat.zero_le _) he), hdg, hempty, rfl, rfl,
      rfl, rfl, rfl, rfl, rfl, completed_sameOperands .digest s⟩

end Sys2Proof.Machine

/-! The block operations RECOVER and OBFUSCATE (spec/42_block_codec.md). -/

namespace Sys2Proof.Machine

open Sys2Proof.Config (Tables)

/-! ## The three ends of a block operation (R95 to R97) -/

/-- Without a buffer a span operation fails with MissingBuffer (R111). -/
theorem exec_span_missing {s : State} (op : SpanOp) (hv : s.bufv = false) :
    exec (spanInstr op) s = .next { s with err := 1, res := 0xFFFFFFFF, phase := .idle } := by
  rw [exec_spanInstr, spanOperation_missing _ hv, State.fail, Failure.value, missingValue_eq]
  rfl

/-- With a buffer and `LEN < 16` a block operation fails with UndersizedBlock (R113). -/
theorem exec_block_undersized {s : State} (d : Dir) (hv : s.bufv = true) (hl : s.length < 16) :
    exec (spanInstr (.block d)) s = .next { s with err := 2, res := 0xFFFFFFFE, phase := .idle } :=
  (exec_spanInstr _ s).trans (spanOperation_undersized _ hv hl)

/-- A block the buffer covers passes the checks of a block operation (R37, R95). -/
theorem BlockReady.passed {s : State} (h : BlockReady s) (d : Dir) : Passed (.block d) s := by
  obtain ⟨⟨hv, he⟩, hl⟩ := h
  exact ⟨hv, he, hl⟩

/-- Without a failed check the operation completes. -/
theorem spanOperation_passed {op : SpanOp} {s : State} (body : State) (h : Passed op s) :
    spanOperation op s body = .next body := by
  obtain ⟨hv, he, hl⟩ := h
  exact spanOperation_completes body hv hl he

/-- On a block the buffer covers a block operation completes. -/
theorem exec_block_ready {s : State} (d : Dir) (h : BlockReady s) :
    exec (spanInstr (.block d)) s = .next (completed (.block d) s) :=
  (exec_spanInstr _ s).trans (spanOperation_passed _ (h.passed d))

theorem exec_recover_ready {s : State} (h : BlockReady s) : exec .recover s = .next (completed (.block .recover) s) :=
  exec_block_ready .recover h

theorem exec_obfuscate_ready {s : State} (h : BlockReady s) :
    exec .obfuscate s = .next (completed (.block .obfuscate) s) :=
  exec_block_ready .obfuscate h

/-- The bytes of the buffer do not decide whether it holds a block. -/
theorem BlockReady.withMem {s : State} (h : BlockReady s) (m : Memory) : BlockReady { s with mem := m } := h

/-- Completion writes no operand, so what held a block still does. -/
theorem BlockReady.completed {s : State} (h : BlockReady s) (d : Dir) : BlockReady (completed (.block d) s) := by
  cases d <;> exact h

@[simp] theorem completed_length (op : SpanOp) (s : State) : (completed op s).length = s.length := by
  obtain _ | _ | _ := op <;> rfl

@[simp] theorem completed_mem_recover (s : State) :
    (completed (.block .recover) s).mem = recoveredMemory Config.tables s.mem s.length := by
  rw [completed, State.endRecover_mem]

@[simp] theorem completed_mem_obfuscate (s : State) :
    (completed (.block .obfuscate) s).mem = obfuscatedMemory Config.tables s.mem s.length := by
  rw [completed, State.endObfuscate_mem]

/-! ## The mismatch count (R96, R102) -/

theorem mismatchCount_congr {m m' : Memory} (d : Slots) (h : ∀ j : Fin 16, m'.read j = m.read j) :
    mismatchCount d m' = mismatchCount d m := by
  simp only [mismatchCount, h]

theorem mismatchCount_eq_zero {d : Slots} {m : Memory} : mismatchCount d m = 0 ↔ ∀ j : Fin 16, d[j] = m.read j := by
  simp [mismatchCount, List.countP_eq_zero]

/-- RECOVER leaves the header, so it compares with the header it found. -/
theorem res_recover {s : State} (h : BlockReady s) :
    (completed (.block .recover) s).res.toNat =
      mismatchCount (payloadDigest (recoveredMemory Config.tables s.mem s.length) s.length) s.mem := by
  obtain ⟨-, hl⟩ := h
  rw [completed_res_recover, recoveredCount,
    mismatchCount_congr _ fun j => recoveredMemory_outside _ _ hl (.inl j.isLt)]

/-- RECOVER returns 0 exactly when the header is the digest of the payload it recovers. -/
theorem res_recover_eq_zero {s : State} (h : BlockReady s) :
    (completed (.block .recover) s).res = 0 ↔
      ∀ j : Fin 16, (payloadDigest (recoveredMemory Config.tables s.mem s.length) s.length)[j] = s.mem.read j := by
  rw [← mismatchCount_eq_zero, ← res_recover h, ← BitVec.toNat_inj]
  rfl

/-! ## The results of the two operations (R96, R97) -/

/-- Settles O20: the memory is what the payload loop leaves, and the count compares its digest with the kept header. -/
theorem recoverResult : Obligations.RecoverResult := by
  refine fun s => ⟨exec_span_missing (.block .recover), exec_block_undersized .recover, fun h => ?_⟩
  refine ⟨_, exec_recover_ready h, fun o => recoveredMemory_payload _ _, fun o ho => ?_, res_recover h, rfl, rfl, rfl,
    rfl, completed_sameOperands _ s⟩
  exact recoveredMemory_outside _ _ h.2 (by omega)

/-- Settles O21: the memory is what the payload loop leaves behind the new header. -/
theorem obfuscateResult : Obligations.ObfuscateResult := by
  refine fun s => ⟨exec_span_missing (.block .obfuscate), exec_block_undersized .obfuscate, fun h => ?_⟩
  refine ⟨_, exec_obfuscate_ready h, fun j => obfuscatedMemory_header _ _ j.isLt, fun o => obfuscatedMemory_payload _ _,
    fun o ho => ?_, rfl, rfl, rfl, rfl, rfl, rfl, completed_sameOperands _ s⟩
  exact obfuscatedMemory_outside _ _ h.2 (by omega)

/-- The block OBFUSCATE leaves depends on the payload only: a header byte is the payload's digest, and a payload byte
depends on the new byte before it. -/
theorem obfuscatedMemory_congr_payload (T : Tables) {m m' : Memory} {L : Nat}
    (h : ∀ o, 16 ≤ o → o < L → m'.read o = m.read o) (o : Nat) (ho : o < L) :
    (obfuscatedMemory T m' L).read o = (obfuscatedMemory T m L).read o := by
  induction o with
  | zero => rw [obfuscatedMemory_header T m' (by decide), obfuscatedMemory_header T m (by decide), payloadDigest_congr h]
  | succ o ih =>
    by_cases hhdr : o + 1 < 16
    · rw [obfuscatedMemory_header T m' hhdr, obfuscatedMemory_header T m hhdr, payloadDigest_congr h]
    · rw [obfuscatedMemory_payload T m' (by omega) ho, obfuscatedMemory_payload T m (by omega) ho, h _ (by omega) ho,
        Nat.add_sub_cancel, ih (by omega)]

/-- Settles O22: the block depends on the payload only. -/
theorem oldHeaderIsNeverRead : Obligations.OldHeaderIsNeverRead := by
  intro s s' h h' hlen hpayload
  refine ⟨_, _, exec_obfuscate_ready h, exec_obfuscate_ready h', fun o ho => ?_⟩
  have hL : s'.length = s.length := congrArg BitVec.toNat hlen
  rw [completed_mem_obfuscate, completed_mem_obfuscate, hL]
  exact obfuscatedMemory_congr_payload _ hpayload o ho

/-! ## OBFUSCATE, then RECOVER (R100) -/

/-- RECOVER takes the key of each byte from the ciphertext, which is the key OBFUSCATE used. -/
theorem recoveredMemory_obfuscatedMemory {T : Tables} (hT : T.Admissible) (m : Memory) {L o : Nat} (h1 : 16 ≤ o)
    (h2 : o < L) : (recoveredMemory T (obfuscatedMemory T m L) L).read o = m.read o := by
  rw [recoveredMemory_payload _ _ h1 h2, obfuscatedMemory_payload _ _ h1 h2, recb_obfb hT]

theorem payloadDigest_roundTrip {T : Tables} (hT : T.Admissible) (m : Memory) (L : Nat) :
    payloadDigest (recoveredMemory T (obfuscatedMemory T m L) L) L = payloadDigest m L :=
  payloadDigest_congr fun _ => recoveredMemory_obfuscatedMemory hT m

/-- The recovered payload is the one whose digest OBFUSCATE wrote over the header. -/
theorem res_recover_obfuscate {s : State} (h : BlockReady s) :
    (completed (.block .recover) (completed (.block .obfuscate) s)).res = 0 := by
  rw [res_recover_eq_zero (h.completed .obfuscate)]
  intro j
  rw [completed_mem_obfuscate, completed_length, payloadDigest_roundTrip Config.tables_admissible]
  exact (obfuscatedMemory_header _ _ j.isLt).symm

/-- Settles O23: RECOVER leaves the header OBFUSCATE wrote, and recovers the payload it was taken from. -/
theorem obfuscateThenRecover : Obligations.ObfuscateThenRecover := by
  refine fun s h => ⟨_, _, exec_obfuscate_ready h, exec_recover_ready (h.completed .obfuscate), res_recover_obfuscate h,
    rfl, fun o => recoveredMemory_obfuscatedMemory Config.tables_admissible _, fun j => ?_⟩
  exact (recoveredMemory_outside _ _ h.2 (.inl j.isLt)).trans (obfuscatedMemory_header _ _ j.isLt)

/-! ## The empty payload (R104) -/

/-- The digest of an empty payload is `MAGIC` (R90). -/
theorem payloadDigest_empty (m : Memory) : payloadDigest m 16 = Config.magic := digest_nil

theorem recoveredMemory_empty (T : Tables) (m : Memory) : recoveredMemory T m 16 = m := rfl

/-- Settles O26: the payload loops take no step, and the last clause is the round trip. -/
theorem emptyPayload : Obligations.EmptyPayload := by
  intro s h hL
  refine ⟨_, _, _, exec_obfuscate_ready h, exec_recover_ready h, exec_recover_ready (h.completed .obfuscate),
    fun j => ?_, fun o ho => ?_, rfl, ?_, ?_, res_recover_obfuscate h⟩
  · rw [completed_mem_obfuscate, hL, obfuscatedMemory_header _ _ j.isLt, payloadDigest_empty]
    rfl
  · rw [completed_mem_obfuscate, hL, obfuscatedMemory_outside _ _ (Nat.le_refl 16) ho]
  · rw [completed_mem_recover, hL, recoveredMemory_empty]
  · rw [res_recover h, hL, payloadDigest_empty, mismatchCount]
    simp only [ne_comm]

/-! ## One altered byte (R101, R103) -/

/-- Recovered bytes other than the altered one and the one it keys are as without the change. -/
theorem recoveredMemory_write_other (T : Tables) (m : Memory) (v : Byte) {L o p : Nat} (h1 : 16 ≤ p) (h2 : p < L)
    (ho : p ≠ o) (ho' : p ≠ o + 1) : (recoveredMemory T (m.write o v) L).read p = (recoveredMemory T m L).read p := by
  rw [recoveredMemory_payload _ _ h1 h2, recoveredMemory_payload _ _ h1 h2, Memory.read_write_other _ _ ho,
    Memory.read_write_other _ _ (by omega)]

/-- The change of the altered byte is permuted: its key, the byte before it, is as it was. -/
theorem recoveredMemory_write_same {T : Tables} (hT : T.Admissible) (m : Memory) (v : Byte) {L o : Nat} (h1 : 16 ≤ o)
    (h2 : o < L) :
    (recoveredMemory T (m.write o v) L).read o =
      (recoveredMemory T m L).read o ^^^ T.permRec (keyClass (m.read (o - 1))) (v ^^^ m.read o) := by
  have hv : m.read o ^^^ (v ^^^ m.read o) = v := by rw [BitVec.xor_comm, xor_cancel]
  rw [recoveredMemory_payload _ _ h1 h2, recoveredMemory_payload _ _ h1 h2, Memory.read_write_same,
    Memory.read_write_other _ _ (by omega), ← recb_xor hT, hv]

/-- A header that matches a digest differs from it in one byte once that byte is altered. -/
theorem mismatchCount_write {d : Slots} {m : Memory} (h : mismatchCount d m = 0) {j : Fin 16} {v : Byte}
    (hv : v ≠ m.read j) : mismatchCount d (m.write j v) = 1 := by
  have hmatch := mismatchCount_eq_zero.mp h
  have hdiff (i : Fin 16) : d[i] ≠ (m.write j v).read i ↔ i = j := by
    rw [hmatch i]
    by_cases hij : i = j
    · simp [hij, hv.symm]
    · simp [Memory.read_write_other _ _ (Fin.val_ne_of_ne hij), hij]
  have hcount : (List.finRange 16).count j = 1 :=
    List.count_eq_one_of_mem (List.nodup_finRange 16) (List.mem_finRange j)
  simp only [mismatchCount, hdiff]
  exact hcount

/-- A header byte below 15 is no key, so altering it disturbs no payload byte, and a block that was intact then has one
mismatch. -/
theorem res_recover_header_write {s : State} (h : BlockReady s) {o : Nat} {v : Byte} (ho : o < 15)
    (hv : v ≠ s.mem.read o) (hres : (completed (.block .recover) s).res = 0) :
    (completed (.block .recover) { s with mem := s.mem.write o v }).res = 1 := by
  have hpayload := payloadDigest_congr (L := s.length) fun p h1 h2 =>
    recoveredMemory_write_other Config.tables s.mem v h1 h2 (o := o) (by omega) (by omega)
  have hzero : mismatchCount (payloadDigest (recoveredMemory Config.tables s.mem s.length) s.length) s.mem = 0 := by
    rw [← res_recover h, hres]
    rfl
  have hone := mismatchCount_write hzero (j := ⟨o, by omega⟩) hv
  rw [← hpayload] at hone
  exact BitVec.eq_of_toNat_eq ((res_recover (h.withMem _)).trans hone)

/-- Settles O24: a recovered byte depends on its ciphertext byte and on the one before it. -/
theorem errorsStayLocal : Obligations.ErrorsStayLocal := by
  intro s o v h ho
  refine ⟨_, _, exec_recover_ready h, exec_recover_ready (h.withMem _),
    fun p h1 h2 => recoveredMemory_write_other _ _ _ h1 h2,
    fun h16 => recoveredMemory_write_same Config.tables_admissible _ _ h16 ho,
    fun h15 hv hres => ⟨?_, fun p h1 h2 => ?_⟩⟩
  · exact res_recover_header_write h h15 hv hres
  · exact recoveredMemory_write_other _ _ _ h1 h2 (by omega) (by omega)

/-- A block operation leaves the bytes from `LEN` on (R103). -/
theorem completed_mem_beyond {s : State} (h : BlockReady s) (d : Dir) {p : Nat} (hp : s.length ≤ p) :
    (completed (.block d) s).mem.read p = s.mem.read p := by
  obtain ⟨-, hl⟩ := h
  cases d with
  | recover => exact recoveredMemory_outside _ _ hl (.inr hp)
  | obfuscate => exact obfuscatedMemory_outside _ _ hl hp

/-- Settles O25: a byte at or above `LEN` is no input of the operation, and is left where it stands. -/
theorem nothingAtOrBeyondLength : Obligations.NothingAtOrBeyondLength := by
  intro s i o v h hi ho
  obtain ⟨d, rfl⟩ : ∃ d, i = spanInstr (.block d) := hi.elim (fun e => ⟨.recover, e⟩) fun e => ⟨.obfuscate, e⟩
  have hin : SameInputs s { s with mem := s.mem.write o v } :=
    ⟨rfl, rfl, fun p hp => Memory.read_write_other _ _ (by omega)⟩
  obtain ⟨hres, hmem, -⟩ := completed_congr hin (h.passed d)
  refine ⟨_, _, exec_block_ready d h, exec_block_ready d (h.withMem _), fun p => completed_mem_beyond h d, hres, ?_,
    fun p hpo => ?_⟩
  · rw [completed_err, completed_err]
  · by_cases hp : p < s.length
    · exact hmem p hp
    · rw [completed_mem_beyond (h.withMem _) d (by exact Nat.le_of_not_lt hp),
        completed_mem_beyond h d (Nat.le_of_not_lt hp), Memory.read_write_other _ _ hpo]

/-! ## Whether a corrupted payload byte is noticed (R105) -/

/-- The block OBFUSCATE leaves, with its byte at `o` replaced by `v`. -/
def corrupted (s : State) (o : Nat) (v : Byte) : State :=
  { completed (.block .obfuscate) s with mem := (completed (.block .obfuscate) s).mem.write o v }

theorem corrupted_mem (s : State) (o : Nat) (v : Byte) :
    (corrupted s o v).mem = (obfuscatedMemory Config.tables s.mem s.length).write o v := by
  rw [corrupted, completed_mem_obfuscate]

@[simp] theorem corrupted_length (s : State) (o : Nat) (v : Byte) : (corrupted s o v).length = s.length :=
  completed_length (.block .obfuscate) s

theorem BlockReady.corrupted {s : State} (h : BlockReady s) (o : Nat) (v : Byte) : BlockReady (corrupted s o v) :=
  (h.completed .obfuscate).withMem _

/-- Payload bytes other than the corrupted one and the next are recovered. -/
theorem recover_corrupted_other {s : State} {o p : Nat} (v : Byte) (h1 : 16 ≤ p) (h2 : p < s.length) (ho : p ≠ o)
    (ho' : p ≠ o + 1) : (completed (.block .recover) (corrupted s o v)).mem.read p = s.mem.read p := by
  rw [completed_mem_recover, corrupted_length, corrupted_mem, recoveredMemory_write_other _ _ _ h1 h2 ho ho',
    recoveredMemory_obfuscatedMemory Config.tables_admissible _ h1 h2]

/-- The corrupted payload byte is recovered with its change permuted. -/
theorem recover_corrupted_same {s : State} {o : Nat} (v : Byte) (h1 : 16 ≤ o) (h2 : o < s.length) :
    (completed (.block .recover) (corrupted s o v)).mem.read o = s.mem.read o ^^^
      Config.tables.permRec (keyClass ((completed (.block .obfuscate) s).mem.read (o - 1)))
        (v ^^^ (completed (.block .obfuscate) s).mem.read o) := by
  rw [completed_mem_recover, corrupted_length, corrupted_mem, completed_mem_obfuscate,
    recoveredMemory_write_same Config.tables_admissible _ _ h1 h2,
    recoveredMemory_obfuscatedMemory Config.tables_admissible _ h1 h2]

/-- A changed payload byte is recovered wrongly: the table entry takes no change but 0 to 0. -/
theorem recover_corrupted_ne {s : State} {o : Nat} {v : Byte} (h1 : 16 ≤ o) (h2 : o < s.length)
    (hv : v ≠ (completed (.block .obfuscate) s).mem.read o) :
    (completed (.block .recover) (corrupted s o v)).mem.read o ≠ s.mem.read o := by
  have hT := Config.tables_admissible
  rw [recover_corrupted_same v h1 h2]
  intro heq
  have hzero := (BitVec.xor_right_inj (s.mem.read o)).mp (heq.trans BitVec.xor_zero.symm)
  rw [← BitVec.ofNat_eq_ofNat, ← bitPermutation_zero (hT.bitsRec _)] at hzero
  exact hv (BitVec.xor_eq_zero_iff.mp (Function.LeftInverse.injective (hT.inverse _) hzero))

/-- A corrupted payload byte goes unnoticed exactly when the disturbed payload has the digest of the original one. -/
theorem res_recover_corrupted {s : State} (h : BlockReady s) {o : Nat} (ho : 16 ≤ o) (v : Byte) :
    (completed (.block .recover) (corrupted s o v)).res = 0 ↔
      payloadDigest (completed (.block .recover) (corrupted s o v)).mem s.length = payloadDigest s.mem s.length := by
  have hhdr (j : Fin 16) : (corrupted s o v).mem.read j = (payloadDigest s.mem s.length)[j] := by
    rw [corrupted_mem, Memory.read_write_other _ _ (by omega)]
    exact obfuscatedMemory_header _ _ j.isLt
  rw [res_recover_eq_zero (h.corrupted o v), completed_mem_recover, corrupted_length]
  constructor
  · exact fun hres => Vector.ext fun j hj => (hres ⟨j, hj⟩).trans (hhdr ⟨j, hj⟩)
  · intro hres j
    rw [hres, hhdr]

/-- The ciphertext has a bit whose flip flips a given bit of the plaintext: obfuscation takes one-bit bytes to one-bit
bytes. -/
theorem exists_oneBit_permRec {T : Tables} (hT : T.Admissible) (c : Fin 7) (i : Fin 8) :
    ∃ b : Fin 8, T.permRec c (BitVec.twoPow 8 b) = BitVec.twoPow 8 i := by
  obtain ⟨b, hb⟩ := bitPermutation_oneBit (hT.bitsObf c) i
  exact ⟨b, by rw [← hb, permRec_permObf hT]⟩

/-- The payload of a block of 18 bytes. -/
theorem payloadDigest_two (m : Memory) : payloadDigest m 18 = digest [m.read 16, m.read 17] := rfl

/-- Slots 0 and 1 of `7E 5C` are both `7F`; the pass complements slot 1, which gives the `80` that `7E 5D` has there
(C2). -/
theorem digest_collision : digest [0x7E, 0x5C] = digest [0x7E, 0x5D] := by decide

theorem digest_7E_5D : (digest [0x7E, 0x5D])[(0 : Fin 16)] = 0x7F ∧ (digest [0x7E, 0x5D])[(1 : Fin 16)] = 0x80 ∧
    (digest [0x7E, 0x5D])[(2 : Fin 16)] = 0x45 := by decide

/-- Settles O27: the flipped bit is the one that the table entry in use takes to bit 0 of the plaintext. -/
theorem corruptionMayGoUnnoticed : Obligations.CorruptionMayGoUnnoticed := by
  intro s h hL h16 h17
  have hdigest : payloadDigest s.mem s.length = digest [0x7E, 0x5D] := by rw [hL, payloadDigest_two, h16, h17]
  have hhdr (j : Fin 16) : (completed (.block .obfuscate) s).mem.read j = (digest [0x7E, 0x5D])[j] := by
    rw [← hdigest, completed_mem_obfuscate]
    exact obfuscatedMemory_header _ _ j.isLt
  obtain ⟨hd0, hd1, hd2⟩ := digest_7E_5D
  obtain ⟨b, hb⟩ := exists_oneBit_permRec Config.tables_admissible
    (keyClass ((completed (.block .obfuscate) s).mem.read 16)) 0
  obtain ⟨v, hv⟩ : ∃ v, v = (completed (.block .obfuscate) s).mem.read 17 ^^^ BitVec.twoPow 8 b := ⟨_, rfl⟩
  have hflip : v ^^^ (completed (.block .obfuscate) s).mem.read 17 = BitVec.twoPow 8 b := by
    rw [hv, BitVec.xor_comm _ (BitVec.twoPow 8 b), xor_cancel]
  have hr16 : (completed (.block .recover) (corrupted s 17 v)).mem.read 16 = 0x7E :=
    (recover_corrupted_other v (by omega) (by omega) (by omega) (by omega)).trans h16
  have hr17 : (completed (.block .recover) (corrupted s 17 v)).mem.read 17 = 0x5C := by
    rw [recover_corrupted_same v (by omega) (by omega), h17, hflip, hb]
    rfl
  have hres : (completed (.block .recover) (corrupted s 17 v)).res = 0 := by
    rw [res_recover_corrupted h (by omega), hdigest, hL, payloadDigest_two, hr16, hr17, digest_collision]
  exact ⟨_, exec_obfuscate_ready h, (hhdr 0).trans hd0, (hhdr 1).trans hd1, (hhdr 2).trans hd2, b, _,
    hv ▸ exec_recover_ready (h.corrupted 17 v), hres, completed_err _ _, hr16, hr17⟩

/-- Slot 0 is the plain sum of the bytes at offsets that are multiples of 16 (R86, R92). -/
theorem payloadDigest_slot0 (m : Memory) (L : Nat) :
    (payloadDigest m L)[(0 : Fin 16)] = BitVec.ofNat 8
      (Config.magic[(0 : Fin 16)].toNat + ∑ i ∈ Finset.range (L - 16) with i % 16 = 0, (m.read (16 + i)).toNat) := by
  have hlen : (m.bytes 16 (L - 16)).length = L - 16 := by rw [Memory.bytes, List.length_map, List.length_range']
  have hsum : slotSum (m.bytes 16 (L - 16)) 0 =
      ∑ i ∈ Finset.range (L - 16) with i % 16 = 0, (m.read (16 + i)).toNat := by
    rw [slotSum_eq_sum, hlen]
    refine Finset.sum_congr rfl fun i hi => ?_
    have hi : i < L - 16 := Finset.mem_range.mp (Finset.mem_filter.mp hi).1
    simp [Memory.bytes, List.getD_eq_getElem?_getD, hi]
  rw [← hsum, payloadDigest, digest, decollide_zero, accumulate_get]
  rfl

/-- Of two payloads that differ at one multiple of 16 the digests differ in slot 0. -/
theorem payloadDigest_slot0_ne {m m' : Memory} {L o : Nat} (h1 : 16 ≤ o) (h2 : o < L) (h16 : o % 16 = 0)
    (hother : ∀ p, 16 ≤ p → p < L → p % 16 = 0 → p ≠ o → m'.read p = m.read p) (hne : m'.read o ≠ m.read o) :
    (payloadDigest m' L)[(0 : Fin 16)] ≠ (payloadDigest m L)[(0 : Fin 16)] := by
  have hmem : o - 16 ∈ (Finset.range (L - 16)).filter (· % 16 = 0) := by
    rw [Finset.mem_filter, Finset.mem_range]
    omega
  have hrest : ∀ i ∈ ((Finset.range (L - 16)).filter (· % 16 = 0)).erase (o - 16),
      (m'.read (16 + i)).toNat = (m.read (16 + i)).toNat := by
    intro i hi
    rw [Finset.mem_erase, Finset.mem_filter, Finset.mem_range] at hi
    rw [hother _ (by omega) (by omega) (by omega) (by omega)]
  intro heq
  rw [payloadDigest_slot0, payloadDigest_slot0, ← Finset.add_sum_erase _ _ hmem, ← Finset.add_sum_erase _ _ hmem,
    Finset.sum_congr rfl hrest, Nat.add_sub_cancel' h1] at heq
  have heq := congrArg BitVec.toNat heq
  rw [BitVec.toNat_ofNat, BitVec.toNat_ofNat] at heq
  have := BitVec.toNat_ne.mp hne
  omega

/-- Settles O28: the byte at `o` is disturbed and feeds slot 0, which the pass keeps; the byte at `o + 1` feeds slot 1. -/
theorem slotZeroCorruptionIsNoticed : Obligations.SlotZeroCorruptionIsNoticed := by
  intro s o v h h1 h2 h16
  refine ⟨_, exec_obfuscate_ready h, fun hv =>
    ⟨completed (.block .recover) (corrupted s o v), exec_recover_ready (h.corrupted o v), fun hres => ?_⟩⟩
  rw [res_recover_corrupted h h1] at hres
  refine payloadDigest_slot0_ne h1 h2 h16 (fun p hp1 hp2 _ hpo => ?_) ?_ (congrArg (·[(0 : Fin 16)]) hres)
  · exact recover_corrupted_other v hp1 hp2 hpo (by omega)
  · exact recover_corrupted_ne h1 h2 hv

end Sys2Proof.Machine

/-! The lines of the sequencer's table (spec/42_block_codec.md R99). -/

namespace Sys2Proof.Machine

/-! ## `CHECK` -/

theorem step_check_missing {op : SpanOp} {s : State} (hp : s.phase = .check op) (hv : s.bufv = false) :
    step s = .next { s with err := 1, res := 0xFFFFFFFF, phase := .idle } := by
  rw [step_check hp, spanOperation_missing _ hv, State.fail, Failure.value, missingValue_eq]
  rfl

theorem step_check_undersized {d : Dir} {s : State} (hp : s.phase = .check (.block d)) (hv : s.bufv = true)
    (hl : s.length < 16) : step s = .next { s with err := 2, res := 0xFFFFFFFE, phase := .idle } :=
  (step_check hp).trans (spanOperation_undersized _ hv hl)

theorem step_check_passed {op : SpanOp} {s : State} (hp : s.phase = .check op) (h : Passed op s) :
    step s = .next { s with phase := afterCheck op } :=
  (step_check hp).trans (spanOperation_passed _ h)

theorem SpanReady.passed {s : State} (h : SpanReady s) : Passed .digest s := by
  obtain ⟨hv, he⟩ := h
  exact ⟨hv, he, Nat.zero_le _⟩

/-! ## `SUM`, `FIX` and `CMP` -/

/-- The slots after one byte summed, slot by slot. -/
theorem step_sum_slots {op : SpanOp} {s : State} (hp : s.phase = .sum op) (hi : s.idx.toNat < s.length)
    (he : s.length ≤ s.extent) :
    ∃ a : Slots, step s = .next { s with acc := a, idx := s.idx + 1 } ∧
      ∀ j : Fin 16, a[j] = if j.val = s.idx.toNat % 16 then s.acc[j] + s.mem.read s.idx.toNat else s.acc[j] := by
  refine ⟨_, step_sum_byte hp hi he, fun j => (addSlot_get _ _ _ j).trans ?_⟩
  simp only [Fin.ext_iff, slotOf_val, eq_comm (a := j.val)]
  rfl

/-- The slots after step `j + 1` of the de-collision pass. -/
theorem step_fix_slots {op : SpanOp} {j : Fin 15} {s : State} (hp : s.phase = .fix op (j.val + 1)) :
    ∃ a : Slots, step s = .next { s with acc := a, phase := .fix op (j.val + 2) } ∧
      a[j.succ] = (if s.acc[j.castSucc] = s.acc[j.succ] then not8 s.acc[j.succ] else s.acc[j.succ]) ∧
      ∀ i : Fin 16, i ≠ j.succ → a[i] = s.acc[i] := by
  have hget (i : Fin 16) := fixSlot_get s.acc (Nat.le_add_left 1 j) (Nat.succ_lt_succ j.isLt) i i.isLt
  refine ⟨_, step_fix_slot hp (by omega), (hget j.succ).trans (if_pos rfl), fun i hi => (hget i).trans (if_neg ?_)⟩
  exact fun h => hi (Fin.ext h)

theorem step_cmp_count {j : Fin 16} {s : State} (hp : s.phase = .cmp j.val) (he : 16 ≤ s.extent) :
    step s = .next
      { s with cnt := if s.acc[j] = s.mem.read j then s.cnt else s.cnt + 1, phase := .cmp (j.val + 1) } := by
  rw [step_cmp_byte hp j.isLt he, ite_not]
  rfl

/-! ## `DONE` -/

@[simp] theorem seqEnd_err (op : SpanOp) (s : State) : (seqEnd op s).err = 0 := by
  obtain _ | _ | _ := op <;> rfl

@[simp] theorem seqEnd_mem (op : SpanOp) (s : State) : (seqEnd op s).mem = s.mem := by
  obtain _ | _ | _ := op <;> rfl

@[simp] theorem seqEnd_dout (op : SpanOp) (s : State) : (seqEnd op s).dout = s.dout := by
  obtain _ | _ | _ := op <;> rfl

theorem seqEnd_sameOperands (op : SpanOp) (s : State) : SameOperands s (seqEnd op s) := by
  obtain _ | _ | _ := op <;> exact ⟨rfl, rfl, rfl, rfl, rfl⟩

/-- RECOVER returns `CNT`, the others 0. -/
theorem seqEnd_res (op : SpanOp) (s : State) :
    (seqEnd op s).res = if op = .block .recover then s.cnt.setWidth 32 else 0 := by
  obtain _ | _ | _ := op <;> rfl

/-- DIGEST writes `DG`, the others do not. -/
theorem seqEnd_dg (op : SpanOp) (s : State) : (seqEnd op s).dg = if op = .digest then s.acc else s.dg := by
  obtain _ | _ | _ := op <;> rfl

/-- Settles O40, one lemma per line. -/
theorem stepsFollowTheTable : Obligations.StepsFollowTheTable := by
  intro s
  refine ⟨fun op => step_check_missing, fun d => step_check_undersized, fun hp h => step_check_passed hp h.passed,
    fun hp h => step_check_passed hp (h.passed _), fun hp h => step_check_passed hp (h.passed _),
    fun d => step_seed, step_xform_byte, step_xform_byte, step_xform_end, step_xform_end, step_sumInit,
    fun d => step_sumInit, fun op => step_sum_slots, fun op => step_sum_end, fun op j => step_fix_slots,
    fun hp => step_fix_end hp (Nat.le_refl 16), fun hp => step_fix_end hp (Nat.le_refl 16),
    fun hp => step_fix_end hp (Nat.le_refl 16), fun j => step_cmp_count, fun hp => step_cmp_end hp (Nat.le_refl 16),
    fun j hp => step_hdr_byte hp j.isLt, fun hp => step_hdr_end hp (Nat.le_refl 16), fun op hp => ?_⟩
  exact ⟨seqEnd op s, (step_done hp).trans (seqDone_eq op s), seqEnd_phase op s, seqEnd_err op s, seqEnd_mem op s,
    seqEnd_dout op s, seqEnd_sameOperands op s, fun h => (seqEnd_res op s).trans (if_pos h),
    fun h => (seqEnd_res op s).trans (if_neg h), fun h => (seqEnd_dg op s).trans (if_pos h),
    fun h => (seqEnd_dg op s).trans (if_neg h)⟩

end Sys2Proof.Machine

/-! Error outcomes, the host's moves between operations, and progress (spec/60_exceptions.md). -/

namespace Sys2Proof.Machine

/-! ## No step stops while the host keeps its duties (R37, R110, R125) -/

/-- A span operation stops only over a buffer that is present and shorter than `LEN` (R37). -/
theorem spanOperation_answers {op : SpanOp} {s : State} (body : State) (h : s.bufv = true → s.length ≤ s.extent) :
    ∃ t, spanOperation op s body = .next t := by
  rcases spanOperation_cases op s body with ⟨f, -, hs⟩ | ⟨hv, -, hlt, -⟩ | ⟨-, -, -, hs⟩
  · exact ⟨_, hs⟩
  · exact absurd (h hv) (Nat.not_le.mpr hlt)
  · exact ⟨_, hs⟩

/-- A command word that decodes to a span operation carries the duty of `EXTENT` (R37). -/
theorem issuesSpanOperation_spanInstr {w : Word} {op : SpanOp} (h : decode w = .ok (spanInstr op)) :
    issuesSpanOperation w = true := by
  rw [issuesSpanOperation_iff]
  obtain _ | _ | _ := op
  · exact .inl h
  · exact .inr (.inl h)
  · exact .inr (.inr h)

theorem issue_answers {w : Word} {s : State}
    (h : issuesSpanOperation w = true → s.bufv = true → s.length ≤ s.extent) : ∃ t, issue w s = .next t := by
  have span (op : SpanOp) (hw : decode w = .ok (spanInstr op)) : ∃ t, issue w s = .next t := by
    rw [issue_ok s hw, exec_spanInstr]
    exact spanOperation_answers _ (h (issuesSpanOperation_spanInstr hw))
  cases hw : decode w with
  | error e => exact ⟨_, issue_error s hw⟩
  | ok i =>
    cases i with
    | recb key data => exact ⟨_, (issue_ok s hw).trans (exec_recb key data s)⟩
    | obfb key data => exact ⟨_, (issue_ok s hw).trans (exec_obfb key data s)⟩
    | digest => exact span .digest hw
    | recover => exact span (.block .recover) hw
    | obfuscate => exact span (.block .obfuscate) hw

theorem issueBySteps_answers {w : Word} {s : State}
    (h : issuesSpanOperation w = true → s.bufv = true → s.length ≤ s.extent) : ∃ t, issueBySteps w s = .next t := by
  rcases issueBySteps_cases w s with hsame | ⟨op, -, hstart⟩
  · rw [hsame]
    exact issue_answers h
  · exact ⟨_, hstart⟩

/-- The host's turn answers a next state when its next move keeps its duties. -/
theorem hostTurn_answers {s : State} (h : NextMoveDutiful s) : ∃ t, hostTurn s = .next t := by
  unfold hostTurn
  unfold NextMoveDutiful at h
  cases hh : s.host with
  | nil => exact ⟨s, rfl⟩
  | cons a rest =>
    rw [hh] at h
    cases a with
    | writeBufv b => exact ⟨_, rfl⟩
    | writeBuf ref bytes => exact ⟨_, rfl⟩
    | writeLen n => exact ⟨_, rfl⟩
    | writeByte off v => exact ⟨_, if_pos h⟩
    | writeCmd w => exact issue_answers h
    | writeCmdBySteps w => exact issueBySteps_answers h
    | reset => exact ⟨_, rfl⟩

/-- An operation in progress takes its next step: `CHECK` under the host's duty, and every phase behind it by the invariant,
which holds that the checks were passed. -/
theorem busy_step_answers {s : State} (hinv : MachineInv s) (hbusy : s.phase ≠ .idle)
    (hcheck : ∀ op, s.phase = .check op → s.bufv = true → s.length ≤ s.extent) : ∃ t, step s = .next t := by
  have fits {p : Phase} (hp : s.phase = p) : SequencerFits { s with phase := p } := hinv.sequencer.at_phase hp
  cases hp : s.phase with
  | idle => exact absurd hp hbusy
  | check op =>
    rw [step_check hp]
    exact spanOperation_answers _ (hcheck op hp)
  | seed d =>
    obtain ⟨-, he, hl⟩ : Passed (.block d) s := fits hp
    exact ⟨_, step_seed hp (Nat.le_trans hl he)⟩
  | xform d =>
    obtain ⟨⟨-, he, -⟩, -⟩ : Passed (.block d) s ∧ _ := fits hp
    rcases Nat.lt_or_ge s.idx.toNat s.length with hi | hi
    · exact ⟨_, step_xform_byte hp hi he⟩
    · exact ⟨_, step_xform_end hp hi⟩
  | sumInit op => exact ⟨_, step_sumInit hp⟩
  | sum op =>
    obtain ⟨⟨-, he, -⟩, -⟩ : Passed op s ∧ _ := fits hp
    rcases Nat.lt_or_ge s.idx.toNat s.length with hi | hi
    · exact ⟨_, step_sum_byte hp hi he⟩
    · exact ⟨_, step_sum_end hp hi⟩
  | fix op j =>
    rcases Nat.lt_or_ge j 16 with hj | hj
    · exact ⟨_, step_fix_slot hp hj⟩
    · exact ⟨_, step_fix_end hp hj⟩
  | cmp j =>
    obtain ⟨⟨-, he, hl⟩, -⟩ : Passed (.block .recover) s ∧ _ := fits hp
    rcases Nat.lt_or_ge j 16 with hj | hj
    · exact ⟨_, step_cmp_byte hp hj (Nat.le_trans hl he)⟩
    · exact ⟨_, step_cmp_end hp hj⟩
  | hdr j =>
    obtain ⟨⟨-, he, hl⟩, -⟩ : Passed (.block .obfuscate) s ∧ _ := fits hp
    rcases Nat.lt_or_ge j 16 with hj | hj
    · exact ⟨_, step_hdr_byte hp hj (Nat.le_trans hl he)⟩
    · exact ⟨_, step_hdr_end hp hj⟩
  | done op => exact ⟨_, (step_done hp).trans (seqDone_eq op s)⟩

/-- Settles O54: in `IDLE` the duties are those of the host's next move, and an operation in progress stops only at its
`CHECK`. -/
theorem dutifulStepsNeverStop : Obligations.DutifulStepsNeverStop := by
  intro s hinv hidle hcheck
  by_cases hp : s.phase = .idle
  · rw [step_idle hp]
    exact hostTurn_answers (hidle hp)
  · exact busy_step_answers hinv hp hcheck

/-! ## An operation in progress ends (R126)

Each step either enters a later part of the operation or takes one turn of the loop of its part: the pair of the parts and the
turns to come falls in lexicographic order. -/

/-- How many parts of an operation are still to come, by its phase. OBFUSCATE transforms after `HDR`, RECOVER before it sums
(R99). -/
def partsLeft : Phase → Nat
  | .idle => 0
  | .done _ => 1
  | .cmp _ => 2
  | .xform .obfuscate => 2
  | .seed .obfuscate => 3
  | .hdr _ => 4
  | .fix _ _ => 5
  | .sum _ => 6
  | .sumInit _ => 7
  | .xform .recover => 8
  | .seed .recover => 9
  | .check _ => 10

/-- How often the loop of the part in progress has still to turn. -/
def turnsLeft (s : State) : Nat :=
  match s.phase with
  | .xform _ => s.length - s.idx.toNat
  | .sum _ => s.length - s.idx.toNat
  | .fix _ j => 16 - j
  | .cmp j => 16 - j
  | .hdr j => 16 - j
  | .idle => 0
  | .check _ => 0
  | .seed _ => 0
  | .sumInit _ => 0
  | .done _ => 0

/-- What falls with every step of an operation in progress. -/
def workLeft (s : State) : ℕ ×ₗ ℕ := toLex (partsLeft s.phase, turnsLeft s)

theorem workLeft_lt_of_parts {s t : State} {p : Phase} (hp : s.phase = p) (h : partsLeft t.phase < partsLeft p) :
    workLeft t < workLeft s :=
  Prod.Lex.toLex_lt_toLex.mpr (.inl (hp ▸ h))

theorem workLeft_lt_of_turns {s t : State} {p : Phase} (hp : s.phase = p) (h : partsLeft t.phase = partsLeft p)
    (hturns : turnsLeft t < turnsLeft s) : workLeft t < workLeft s :=
  Prod.Lex.toLex_lt_toLex.mpr (.inr ⟨hp ▸ h, hturns⟩)

theorem partsLeft_afterCheck_lt (op : SpanOp) : partsLeft (afterCheck op) < partsLeft (.check op) := by
  obtain _ | _ | _ := op <;> simp [partsLeft, afterCheck]

theorem partsLeft_afterXform_lt (d : Dir) : partsLeft (afterXform d) < partsLeft (.xform d) := by
  cases d <;> simp [partsLeft, afterXform]

theorem partsLeft_seqAfterFix_lt (op : SpanOp) (j : Nat) (s : State) :
    partsLeft (seqAfterFix op s).phase < partsLeft (.fix op j) := by
  obtain _ | _ | _ := op <;> simp [partsLeft, seqAfterFix]

theorem partsLeft_xform_lt (d : Dir) : partsLeft (.xform d) < partsLeft (.seed d) := by
  cases d <;> simp [partsLeft]

/-- A byte done at `IDX` below `LEN` is one byte less to `LEN`. -/
theorem length_sub_idx_lt {s : State} (h : s.idx.toNat < s.length) :
    s.length - (s.idx + 1).toNat < s.length - s.idx.toNat := by
  rw [idx_succ h]
  omega

/-- Every step of an operation in progress leaves less work. -/
theorem CoreStep.workLeft_lt {s t : State} (h : CoreStep s t) : workLeft t < workLeft s := by
  cases h with
  | checkFails hp _ => exact workLeft_lt_of_parts hp (by simp [partsLeft])
  | checkPasses hp _ => exact workLeft_lt_of_parts hp (partsLeft_afterCheck_lt _)
  | seed hp => exact workLeft_lt_of_parts hp (partsLeft_xform_lt _)
  | xformByte hp hlt _ =>
    refine workLeft_lt_of_turns hp (congrArg partsLeft hp) ?_
    simp only [turnsLeft, hp]
    exact length_sub_idx_lt hlt
  | xformEnd hp _ => exact workLeft_lt_of_parts hp (partsLeft_afterXform_lt _)
  | sumInit hp => exact workLeft_lt_of_parts hp (by simp [partsLeft])
  | sumByte hp hlt =>
    refine workLeft_lt_of_turns hp (congrArg partsLeft hp) ?_
    simp only [turnsLeft, hp]
    exact length_sub_idx_lt hlt
  | sumEnd hp _ => exact workLeft_lt_of_parts hp (by simp [partsLeft])
  | fixSlot hp hj => exact workLeft_lt_of_turns hp rfl (by simp only [turnsLeft, hp]; omega)
  | fixEnd hp _ => exact workLeft_lt_of_parts hp (partsLeft_seqAfterFix_lt _ _ s)
  | cmpByte hj hp => exact workLeft_lt_of_turns hp rfl (by simp only [turnsLeft, hp]; omega)
  | cmpEnd hp _ => exact workLeft_lt_of_parts hp (by simp [partsLeft])
  | hdrByte hj hp _ => exact workLeft_lt_of_turns hp rfl (by simp only [turnsLeft, hp]; omega)
  | hdrEnd hp _ => exact workLeft_lt_of_parts hp (by simp [partsLeft])
  | done hp => exact workLeft_lt_of_parts hp (by simp [partsLeft, seqEnd_phase])

/-- Settles O42, by induction on the work left: the invariant gives the next step, and that step keeps the invariant, the
operands and the host's moves. -/
theorem everyOperationEnds : Obligations.EveryOperationEnds := by
  intro s
  induction hw : workLeft s using WellFoundedLT.induction generalizing s with
  | ind w ih =>
    intro hinv hbusy he
    obtain ⟨t, hs⟩ := busy_step_answers hinv hbusy fun _ _ _ => he
    have hstep := coreStep_of_step hbusy hs
    obtain ⟨-, -, hlen, hext, hhost⟩ := hstep.sameOperands
    by_cases hp : t.phase = .idle
    · exact ⟨1, t, run_succ 0 hs, hp, hhost⟩
    · have hcovers : t.length ≤ t.extent := by rwa [State.length, hlen, hext]
      obtain ⟨n, u, hrun, hend, hu⟩ :=
        ih (workLeft t) (hw ▸ hstep.workLeft_lt) t rfl (stepKeepsInv s t hinv hs) hp hcovers
      exact ⟨n + 1, u, (run_succ n hs).trans hrun, hend, hu.trans hhost⟩

/-! ## Failed commands (R111, R113, R117, R118) -/

/-- Settles O33: of the ends a command has, only a failure has an error code. -/
theorem failedOperationChangesNothingElse : Obligations.FailedOperationChangesNothingElse := by
  intro w s t h herr
  rcases issue_next h with ⟨e, -, rfl⟩ | ⟨i, -, hexec⟩
  · rfl
  rcases exec_next hexec with ⟨_, _, -, rfl⟩ | ⟨_, _, -, rfl⟩ | ⟨_, _, -, -, rfl⟩ | ⟨op, -, -, rfl⟩
  · exact absurd rfl herr
  · exact absurd rfl herr
  · rfl
  · exact absurd (completed_err op s) herr

/-- Settles O31. -/
theorem missingBufferFails : Obligations.MissingBufferFails := by
  intro s hv
  have hobf := exec_span_missing (.block .obfuscate) hv
  refine ⟨exec_span_missing (.block .recover) hv, hobf, exec_span_missing .digest hv, fun t ht => ?_⟩
  cases hobf.symm.trans ht
  rfl

/-- The value of UndersizedBlock is no mismatch count (R113). -/
theorem ofNat_ne_resUndersized {n : Nat} (h : n ≤ 16) : BitVec.ofNat 32 n ≠ 0xFFFFFFFE := by
  bv_omega

/-- Settles O32: DIGEST passes its checks whatever `LEN` is. -/
theorem undersizedBlockFails : Obligations.UndersizedBlockFails := by
  intro s hv hl
  refine ⟨exec_block_undersized .recover hv hl, exec_block_undersized .obfuscate hv hl, by decide,
    fun n => ofNat_ne_resUndersized, by decide, by decide, fun he => ⟨completed .digest s, ?_, completed_err .digest s⟩⟩
  exact (exec_spanInstr .digest s).trans (spanOperation_passed _ ⟨hv, he, Nat.zero_le _⟩)

/-- A span operation overwrites `RES` and `ERR` wherever it ends, and does not look at them (R118). -/
theorem exec_span_overwrites_res_err (op : SpanOp) (s : State) (r : Word) (e : BitVec 2) :
    exec (spanInstr op) { s with res := r, err := e } = exec (spanInstr op) s := by
  have hbody : completed op { s with res := r, err := e } = completed op s := by obtain _ | _ | _ := op <;> rfl
  rw [exec_spanInstr, exec_spanInstr, hbody]
  unfold spanOperation
  rw [show entryFailure op { s with res := r, err := e } = entryFailure op s from rfl]
  cases entryFailure op s <;> rfl

/-- Settles O34: each operation, and the failure of an illegal word, overwrites the two registers. -/
theorem errorsAreNotSticky : Obligations.ErrorsAreNotSticky := by
  intro w s r e
  cases hw : decode w with
  | error _ => rw [issue_error _ hw, issue_error _ hw]; rfl
  | ok i =>
    rw [issue_ok _ hw, issue_ok _ hw]
    cases i with
    | recb key data => rfl
    | obfb key data => rfl
    | digest => exact exec_span_overwrites_res_err .digest s r e
    | recover => exact exec_span_overwrites_res_err (.block .recover) s r e
    | obfuscate => exact exec_span_overwrites_res_err (.block .obfuscate) s r e

/-! ## Between operations (R124, R125) -/

/-- Settles O45. -/
theorem hostWritesOnlyTheirTarget : Obligations.HostWritesOnlyTheirTarget := by
  intro s rest hp
  refine ⟨fun b hh => step_move hp hh, fun n hh => step_move hp hh, fun off v hh hoff => ?_, fun ref bytes hh => ?_⟩
  · exact ⟨_, (step_move hp hh).trans (if_pos hoff), rfl, Memory.read_write_same _ _ _, sameBytesOutside_of_write rfl rfl⟩
  · refine ⟨_, step_move hp hh, rfl, fun o _ => ?_⟩
    exact (Memory.read_ofBytes bytes 0 o).trans (if_pos (Nat.zero_le o))

/-- Settles O51. -/
theorem idleHolds : Obligations.IdleHolds := by
  intro s hp hh
  rw [step_idle hp, hostTurn, hh]

end Sys2Proof.Machine

/-! Reset, a RECOVER with a smaller `LEN`, and the number of steps (spec/70_reset_and_hazards.md). -/

namespace Sys2Proof.Machine

/-! ## RECOVER with a smaller `LEN` (R138) -/

/-- A recovered byte depends on the ciphertext byte and the one before it, not on how many bytes are recovered after it. -/
theorem recoveredMemory_shorter (T : Config.Tables) (m : Memory) {L n o : Nat} (hn : n ≤ L) (h1 : 16 ≤ o) (h2 : o < n) :
    (recoveredMemory T m n).read o = (recoveredMemory T m L).read o := by
  rw [recoveredMemory_payload T m h1 h2, recoveredMemory_payload T m h1 (Nat.lt_of_lt_of_le h2 hn)]

/-- A buffer that covers a block covers every shorter one. -/
theorem BlockReady.shorter {s : State} (h : BlockReady s) {n : Word} (h16 : 16 ≤ n.toNat) (hn : n.toNat ≤ s.length) :
    BlockReady { s with len := n } := by
  obtain ⟨⟨hv, he⟩, -⟩ := h
  exact ⟨⟨hv, Nat.le_trans hn he⟩, h16⟩

/-- Settles O29: below the smaller `LEN` the two lengths recover the same bytes, and the whole length is the round trip. -/
theorem shorterRecoverGivesPrefix : Obligations.ShorterRecoverGivesPrefix := by
  intro s n h h16 hn
  have hshort : BlockReady { completed (.block .obfuscate) s with len := n } :=
    (h.completed .obfuscate).shorter h16 (by rwa [completed_length])
  refine ⟨_, _, exec_obfuscate_ready h, exec_recover_ready hshort, fun o h1 h2 => ?_⟩
  rw [completed_mem_recover, completed_mem_obfuscate]
  exact (recoveredMemory_shorter _ _ hn h1 h2).trans
    (recoveredMemory_obfuscatedMemory Config.tables_admissible _ h1 (Nat.lt_of_lt_of_le h2 hn))

/-! ## The number of steps of a block operation (R99, R139) -/

/-- The command word of a block operation is the one its encoding gives (R52). -/
theorem decode_blockWord (d : Dir) : decode (blockWord d) = .ok (spanInstr (.block d)) := by
  cases d with
  | recover => exact decodeOfEncode .recover
  | obfuscate => exact decodeOfEncode .obfuscate

/-- The two directions take the same parts in another order, so the same number of steps. -/
theorem busy_block {d : Dir} {s : State} (hp : s.phase = afterCheck (.block d)) (hl : 16 ≤ s.length)
    (he : s.length ≤ s.extent) : BusyRun (2 * (s.length - 16) + 38) s (completed (.block d) s) := by
  cases d with
  | recover => exact busy_recover hp hl he
  | obfuscate => exact busy_obfuscate hp hl he

/-- A block operation from its `CHECK` on, which is one step more. -/
theorem busy_seqStart_block (d : Dir) {s : State} (h : BlockReady s) :
    BusyRun (2 * (s.length - 16) + 39) (seqStart (.block d) s) (completed (.block d) s) := by
  obtain ⟨-, he, hl⟩ := h.passed d
  have hrun := busy_block (s := { s with phase := afterCheck (.block d) }) rfl hl he
  rw [completed_phase] at hrun
  exact .next (fun hidle => nomatch hidle) (step_check_passed rfl (h.passed d)) hrun

/-- The end of a span operation leaves the CORE idle. -/
theorem completed_idle (op : SpanOp) (s : State) : (completed op s).phase = .idle := by
  obtain _ | _ | _ := op <;> rfl

/-- Settles O41: besides the two loops over the payload there are 40 steps, the write of `CMD` and `CHECK` among them. -/
theorem stepCountIsLinear : Obligations.StepCountIsLinear := by
  refine fun d => ⟨40, fun s rest h hp hh => ?_⟩
  have hstart : step s = .next (seqStart (.block d) { s with host := rest }) :=
    (step_move hp hh).trans (issueBySteps_spanInstr _ (decode_blockWord d))
  obtain ⟨hend, hbusy⟩ := run_of_busyRun hstart (busy_seqStart_block d (s := { s with host := rest }) h)
  obtain ⟨-, -, -, -, hhost⟩ := completed_sameOperands (.block d) { s with host := rest }
  exact ⟨⟨_, hend, completed_idle _ _, hhost⟩, hbusy⟩

/-! ## Reset between operations (R25, R130) -/

/-- Settles O49: between operations reset is the host's move, and no step of an operation in progress takes a move. -/
theorem resetKeepsTheBuffer : Obligations.ResetKeepsTheBuffer := by
  refine fun s rest hh => ⟨fun hp => ?_, fun hbusy t ht => ?_⟩
  · exact ⟨_, step_move hp hh, rfl, rfl, rfl, rfl, rfl, rfl, fun j => Vector.getElem_replicate j.isLt, rfl, rfl, rfl⟩
  · obtain ⟨-, -, -, -, hhost⟩ := (coreStep_of_step hbusy ht).sameOperands
    exact hhost

end Sys2Proof.Machine
